-- ==== Sys2Proof/Word.lean ====
section
/-! DEFINITION. The bit vectors the spec treats as bits (00_scope.md R8, R10): bytes, command words, host addresses. -/

namespace Sys2Proof

/-- A byte: 8 bits, bit 7 the most significant (00_scope.md R10). It is the one unit of every access (20_memory.md R48). -/
abbrev Byte := BitVec 8

/-- A command word, `CMDW` = 16 bits (00_scope.md R8, 30_encoding.md R70). -/
abbrev Word := BitVec 16

/-- A host-port address, `HADDRW` = 10 bits (00_scope.md R8, 20_memory.md R42). -/
abbrev HostAddr := BitVec 10

end Sys2Proof
end

