-- ==== Sys2Proof/Config.lean ====
section
/-! DEFINITION. What is fixed for the machine (00_scope.md R7, R8) and the one open parameter (00_scope.md R9). -/

namespace Sys2Proof.Config

/-- `NBUF`, the number of buffer registers (00_scope.md R8). -/
def bufferCount : Nat := 4

/-- `CAP`, the capacity of a buffer register in bytes (00_scope.md R8). -/
def capacity : Nat := 128

/-- The number of byte cells, `NBUF * CAP` (10_state.md R20). Cells are the host addresses below it (20_memory.md R43). -/
def cellCount : Nat := bufferCount * capacity

/-- What a cell that `mem` does not list reads as: the reset value of every byte cell (10_state.md R20, R35). -/
def unlistedByte : Byte := 0x00

/-- The open part of `LAT` (00_scope.md R9, 70_reset_and_hazards.md R196): how many cycles beyond the first a command keeps
the core busy, from its opcode and the `LEN` values it may depend on (`operandLens`). It has no body: an implementation fixes it, and
nothing here can depend on its value. Only the pin-level layer reads it; log entries 3 and 11. -/
opaque extraCycles : BitVec 4 → List Byte → Nat

end Sys2Proof.Config
end

