-- ==== Sys2Proof/Syntax.lean ====
section
/-! DEFINITION. The six commands of GFD (30_encoding.md R74), one constructor per row of the opcode table. -/

namespace Sys2Proof

/-- The four buffer registers (10_state.md R21): all alike, none hardwired. -/
inductive Reg where
  | b0 | b1 | b2 | b3
deriving DecidableEq, Repr

/-- The command set GFD-1. Operands stand in the order of the assembler syntax (30_encoding.md R79), roles as in R72. -/
inductive Instr where
  /-- `SHLC rd, ra`: `rd` = dst, `ra` = src (40_field_arithmetic.md R90). -/
  | shlc (rd ra : Reg)
  /-- `DOUBLE rd, ra`: `ra` = input, `rd` the returned buffer (40_field_arithmetic.md R98). -/
  | double (rd ra : Reg)
  /-- `XORINTO rd, ra`: `rd` = X, read and written, `ra` = Y (41_buffer_combination.md R120). -/
  | xorinto (rd ra : Reg)
  /-- `XORTO rd, ra, rb`: `rd` = Z, `ra` = X, `rb` = Y (41_buffer_combination.md R124). -/
  | xorto (rd ra rb : Reg)
  /-- `XORR rd, ra, rb`: `ra` = X, `rb` = Y, `rd` the returned buffer (41_buffer_combination.md R128). -/
  | xorr (rd ra rb : Reg)
  /-- `SETLEN rd, imm8`: the new length, unsigned (42_buffer_management.md R140). -/
  | setlen (rd : Reg) (imm8 : Byte)
deriving DecidableEq, Repr

end Sys2Proof
end

