-- ==== Sys2Proof/WellFormed.lean ====
section
/-! DEFINITION. Which commands have a word: every register field is legal in every value (30_encoding.md R72), and the one
immediate is at most `CAP` (30_encoding.md R73, 42_buffer_management.md R141). -/

namespace Sys2Proof

/-- Well-formed commands: the ones the encoding can express (30_encoding.md R75). -/
def Instr.wf : Instr → Bool
  | .shlc _ _ => true
  | .double _ _ => true
  | .xorinto _ _ => true
  | .xorto _ _ _ => true
  | .xorr _ _ _ => true
  | .setlen _ imm8 => decide (imm8.toNat ≤ Config.capacity)

end Sys2Proof
end

