-- ==== Sys2Proof/Decode.lean ====
section
/-! DEFINITION. The decoder of 30_encoding.md R75, total on 16-bit words, and the encoder of R71 and R74 after it. -/

namespace Sys2Proof

/-- Why a word is no command (30_encoding.md R76). All three raise the one cause `ILLEGAL_COMMAND`. -/
inductive IllegalWord where
  /-- The opcode is 0x0 or 0x7..0xF. -/
  | reservedOpcode
  /-- A reserved field of the format is not zero. -/
  | reservedBits
  /-- `SETLEN` with `imm8` above 128 (42_buffer_management.md R141). -/
  | immediateAboveCapacity
deriving DecidableEq, Repr

/-- What a word decodes to: a command with its fields, or `illegal` (30_encoding.md R75). -/
inductive Decoded where
  | command (i : Instr)
  | illegal (why : IllegalWord)
deriving DecidableEq, Repr

/-- The register a 2-bit field names (30_encoding.md R72). -/
def Reg.ofBits (b : BitVec 2) : Reg :=
  match b.toNat with
  | 0 => .b0
  | 1 => .b1
  | 2 => .b2
  | _ => .b3

/-- The 2-bit number of a register (30_encoding.md R72). -/
def Reg.bits : Reg → BitVec 2
  | .b0 => 0
  | .b1 => 1
  | .b2 => 2
  | .b3 => 3

/-- `op = cmd[15:12]` (30_encoding.md R71). -/
def opField (w : Word) : BitVec 4 := w.extractLsb' 12 4

/-- `rd = cmd[11:10]` (30_encoding.md R71). -/
def rdField (w : Word) : Reg := Reg.ofBits (w.extractLsb' 10 2)

/-- `ra = cmd[9:8]` in formats `RR` and `RRR` (30_encoding.md R71). -/
def raField (w : Word) : Reg := Reg.ofBits (w.extractLsb' 8 2)

/-- `rb = cmd[7:6]` in format `RRR` (30_encoding.md R71). -/
def rbField (w : Word) : Reg := Reg.ofBits (w.extractLsb' 6 2)

/-- `imm8 = cmd[7:0]` in format `RI`: unsigned, neither extended nor scaled (30_encoding.md R73). -/
def immField (w : Word) : Byte := w.extractLsb' 0 8

/-- Format `RR`: bits 7:0 are reserved and must be 0 (30_encoding.md R71). -/
def decodeRR (w : Word) (f : Reg → Reg → Instr) : Decoded :=
  if w.extractLsb' 0 8 = 0 then .command (f (rdField w) (raField w)) else .illegal .reservedBits

/-- Format `RRR`: bits 5:0 are reserved and must be 0 (30_encoding.md R71). -/
def decodeRRR (w : Word) (f : Reg → Reg → Reg → Instr) : Decoded :=
  if w.extractLsb' 0 6 = 0 then .command (f (rdField w) (raField w) (rbField w)) else .illegal .reservedBits

/-- Format `RI`: bits 9:8 are reserved and must be 0, and the immediate is at most 128 (30_encoding.md R71, R73). -/
def decodeRI (w : Word) (f : Reg → Byte → Instr) : Decoded :=
  if w.extractLsb' 8 2 = 0 then
    if (immField w).toNat ≤ Config.capacity then .command (f (rdField w) (immField w))
    else .illegal .immediateAboveCapacity
  else .illegal .reservedBits

/-- The decoder of 30_encoding.md R75, in its order. It reads no state. -/
def decode (w : Word) : Decoded :=
  match (opField w).toNat with
  | 1 => decodeRR w .shlc
  | 2 => decodeRR w .double
  | 3 => decodeRR w .xorinto
  | 4 => decodeRRR w .xorto
  | 5 => decodeRRR w .xorr
  | 6 => decodeRI w .setlen
  | _ => .illegal .reservedOpcode

/-- Format `RR`, its fields from bit 15 down (30_encoding.md R71). -/
def encodeRR (op : BitVec 4) (rd ra : Reg) : Word := op ++ rd.bits ++ ra.bits ++ (0 : BitVec 8)

/-- Format `RRR`, its fields from bit 15 down (30_encoding.md R71). -/
def encodeRRR (op : BitVec 4) (rd ra rb : Reg) : Word := op ++ rd.bits ++ ra.bits ++ rb.bits ++ (0 : BitVec 6)

/-- Format `RI`, its fields from bit 15 down (30_encoding.md R71). -/
def encodeRI (op : BitVec 4) (rd : Reg) (imm8 : Byte) : Word := op ++ rd.bits ++ (0 : BitVec 2) ++ imm8

/-- The word of a command, with the opcode numbers of 30_encoding.md R74. -/
def encode : Instr → Word
  | .shlc rd ra => encodeRR 0x1 rd ra
  | .double rd ra => encodeRR 0x2 rd ra
  | .xorinto rd ra => encodeRR 0x3 rd ra
  | .xorto rd ra rb => encodeRRR 0x4 rd ra rb
  | .xorr rd ra rb => encodeRRR 0x5 rd ra rb
  | .setlen rd imm8 => encodeRI 0x6 rd imm8

/-- The word made of the low `nbits` bits of `w`, every bit above them 0, as the command port presents it: one 16-bit value
with no byte order (20_memory.md R55). -/
def tableWord (nbits w : Nat) : Word := BitVec.ofNat 16 (w % 2 ^ nbits)

/-- The command the decoder reads from the opcode table's word `w` of `nbits` bits. -/
def decodeTableWord (nbits w : Nat) : Option Instr :=
  match decode (tableWord nbits w) with
  | .command i => some i
  | .illegal _ => none

end Sys2Proof
end

