-- ==== Sys2Proof/Machine/State.lean ====
section
/-! DEFINITION. The machine's state as plain data: exactly the table of 10_state.md R20, and beside it the two fields a model
driven one step at a time needs (the host's transactions to come, and the byte a read returns). -/

namespace Sys2Proof.Machine

/-- The byte cells: (address, byte) pairs in rising order of address, none of them the value an unlisted address reads as.
Cell `B[k][i]` stands at its host address `128*k + i` (20_memory.md R43). -/
abbrev Memory := List Host.Cell

/-- `CAUSE`, all four values of its 2 bits (10_state.md R29). -/
inductive Cause where
  /-- 0: no fault recorded. -/
  | none
  /-- 1: the word is none of the six commands (60_exceptions.md R151). -/
  | illegalCommand
  /-- 2: `DOUBLE` on a length that is no field size (60_exceptions.md R152). -/
  | unsupportedFieldSize
  /-- 3: a length precondition of `SHLC`, `XORINTO`, `XORTO` or `XORR` does not hold (60_exceptions.md R153). -/
  | lengthPrecondition
deriving DecidableEq, Repr

/-- A host-port access: the only width is one byte (20_memory.md R46, R47, R48). -/
inductive Access where
  | read (addr : HostAddr)
  | write (addr : HostAddr) (v : Byte)
deriving DecidableEq, Repr

/-- What the host drives at one rising edge at which the core is idle (20_memory.md R41): `rst`, at most one host-port access
and at most one command word. Both may transfer at one edge (20_memory.md R61); with `rst` neither does
(70_reset_and_hazards.md R181). -/
structure Edge where
  rst : Bool
  access : Option Access
  command : Option Word
deriving DecidableEq, Repr

/-- The state of GFD. The fields down to `cause` are the architectural state, exactly 10_state.md R20. `inputs` and `readData`
are the model's own (DESIGN CHOICE, safe: log entries 1 and 2). -/
structure State where
  /-- The 512 byte cells `B[k][i]`. -/
  mem : Memory
  /-- `LEN[0]`. -/
  len0 : Byte
  /-- `LEN[1]`. -/
  len1 : Byte
  /-- `LEN[2]`. -/
  len2 : Byte
  /-- `LEN[3]`. -/
  len3 : Byte
  /-- `CARRY` (10_state.md R28). -/
  carry : Bool
  /-- `FAULT` (10_state.md R29). -/
  fault : Bool
  /-- `CAUSE` (10_state.md R29). -/
  cause : Cause
  /-- The host's edges to come, the next one first: the input of the model (10_state.md R34), DESIGN CHOICE, log entry 1. -/
  inputs : List Edge
  /-- The byte on `h_rdata` if the latest step transferred a host read, else none (70_reset_and_hazards.md R191), DESIGN
  CHOICE, log entry 2. -/
  readData : Option Byte
deriving DecidableEq, Repr

/-- The reasons a step could stop with a fault of the model: there is none. GFD never stops (70_reset_and_hazards.md R195);
its own fault is a next state with `FAULT` = 1 (60_exceptions.md R158), DEDUCED, log entry 4. Safe: nothing raises it. -/
inductive Fault where
deriving DecidableEq, Repr

/-- The reasons a step could be refused. -/
inductive Refusal where
  /-- An instruction without a meaning yet. No arm raises it: all six commands have their meaning. Safe. -/
  | notModelled (mnemonic : String)
deriving DecidableEq, Repr

/-- The state right after reset (10_state.md R35): every cell 0x00 (nothing listed), every length 0, `CARRY`, `FAULT` and
`CAUSE` 0. The host has presented nothing and no read has transferred (DESIGN CHOICE, safe: log entries 1 and 2). -/
def State.reset : State where
  mem := []
  len0 := 0
  len1 := 0
  len2 := 0
  len3 := 0
  carry := false
  fault := false
  cause := .none
  inputs := []
  readData := Option.none

end Sys2Proof.Machine
end

