-- ==== Sys2Proof/Machine/Ops.lean ====
section
/-! DEFINITION. The shared operations over cells, lengths and the fault state. -/

namespace Sys2Proof.Machine

/-- One step's outcome on this machine. -/
abbrev Result := Host.Outcome State Fault Refusal

/-! ### Memory in its one canonical form -/

/-- The byte at an address; one that is not listed reads as `Config.unlistedByte`. -/
def Memory.read : Memory → Nat → Byte
  | [], _ => Config.unlistedByte
  | (k, v) :: m, a => if k = a then v else Memory.read m a

/-- A memory with `(a, v)` in front, or without it where `v` is what an unlisted address reads as. -/
def Memory.push (a : Nat) (v : Byte) (m : Memory) : Memory :=
  if v = Config.unlistedByte then m else (a, v) :: m

/-- The memory after one byte is written, in canonical form again: addresses rising, no entry that says what an unlisted
address says. -/
def Memory.write : Memory → Nat → Byte → Memory
  | [], a, v => Memory.push a v []
  | (k, w) :: m, a, v =>
    if a < k then Memory.push a v ((k, w) :: m)
    else if a = k then Memory.push a v m
    else (k, w) :: Memory.write m a v

/-- The canonical form: addresses strictly rising, every address a cell's (20_memory.md R43), no entry equal to what an
unlisted address reads as. -/
abbrev Memory.wf (m : Memory) : Prop :=
  m.Pairwise (fun c d => c.1 < d.1) ∧ ∀ c ∈ m, c.1 < Config.cellCount ∧ c.2 ≠ Config.unlistedByte

/-! ### Buffer registers (10_state.md R22) and length registers (R25) -/

/-- The host address of cell `B[k][i]`: `128*k + i` (20_memory.md R43). -/
def cellAddr (k : Reg) (i : Nat) : Nat := Config.capacity * k.bits.toNat + i

/-- `B[k][i]`. There is no cell at index 128 or above (10_state.md R22); asked for one, which only a state with a length above
128 can do, it answers the unlisted byte (DESIGN CHOICE, safe: log entry 5). -/
def State.cell (s : State) (k : Reg) (i : Nat) : Byte :=
  if i < Config.capacity then Memory.read s.mem (cellAddr k i) else Config.unlistedByte

/-- `B[k][i] <- v`. There is no cell at index 128 or above to write (DESIGN CHOICE, safe: log entry 5). -/
def State.setCell (s : State) (k : Reg) (i : Nat) (v : Byte) : State :=
  if i < Config.capacity then { s with mem := Memory.write s.mem (cellAddr k i) v } else s

/-- `B[k][i : i + n] <- bs` for the `n` bytes `bs`. -/
def State.setCells (s : State) (k : Reg) (i : Nat) : List Byte → State
  | [] => s
  | b :: bs => State.setCells (s.setCell k i b) k (i + 1) bs

/-- `LEN[k]` (10_state.md R25). -/
def State.len (s : State) : Reg → Byte
  | .b0 => s.len0
  | .b1 => s.len1
  | .b2 => s.len2
  | .b3 => s.len3

/-- `LEN[k] <- n` (10_state.md R25). -/
def State.setLen (s : State) (k : Reg) (n : Byte) : State :=
  match k with
  | .b0 => { s with len0 := n }
  | .b1 => { s with len1 := n }
  | .b2 => { s with len2 := n }
  | .b3 => { s with len3 := n }

/-! ### Faults and reset -/

/-- `raise Fault(cause)`, the fault entry of 60_exceptions.md R158: `FAULT <- 1`, `CAUSE <- cause`, nothing else. There is no
vector, no saved state and no mode (R154, R158), and no return but reset (R161). -/
def State.raiseFault (s : State) (c : Cause) : State := { s with fault := true, cause := c }

/-- A rising edge with `rst = 1` (70_reset_and_hazards.md R180): the whole architectural state takes its reset value. It is the
only way out of a fault (R182). What the host will present later is not GFD's state and stays (DEDUCED, safe: log entry 6). -/
def State.resetEdge (s : State) : State := { State.reset with inputs := s.inputs }

/-- The issue of a command whose effect is `effect` (60_exceptions.md R160): discarded while `FAULT` = 1, else executed. -/
def State.issueEffect (s : State) (effect : State → State) : Result :=
  if s.fault then .next s else .next (effect s)

/-- The issue of a word that is no command: `ILLEGAL_COMMAND` (60_exceptions.md R151), discarded like every command while
`FAULT` = 1 (R160). -/
def execIllegal (s : State) : Result := s.issueEffect fun s => s.raiseFault .illegalCommand

end Sys2Proof.Machine
end

