-- ==== Sys2Proof/Machine/Operands.lean ====
section
/-! DEFINITION. Operands of commands: register-direct buffers (20_memory.md R64) and the ways two byte sequences are combined. -/

namespace Sys2Proof.Machine

/-- `LEN[k]` as a count of bytes (10_state.md R25). -/
def State.count (s : State) (k : Reg) : Nat := (s.len k).toNat

/-- `B[k][0:n]` (00_scope.md R13). -/
def State.slice (s : State) (k : Reg) (n : Nat) : List Byte := (List.range n).map (s.cell k)

/-- The buffer held by `Bk`, `B[k][0:LEN[k]]` (10_state.md R22). -/
def State.buffer (s : State) (k : Reg) : List Byte := s.slice k (s.count k)

/-- Byte-wise XOR at equal indices, left-aligned (20_memory.md R55). -/
def xorBytes (x y : List Byte) : List Byte := List.zipWith (· ^^^ ·) x y

/-- `t` with `y` XORed in from index `off` on: byte `i` of `y` meets byte `off + i` of `t`
(41_buffer_combination.md R128, R129). -/
def xorAt : List Byte → Nat → List Byte → List Byte
  | [], _, _ => []
  | t :: ts, off + 1, y => t :: xorAt ts off y
  | t :: ts, 0, [] => t :: ts
  | t :: ts, 0, y :: ys => (t ^^^ y) :: xorAt ts 0 ys

/-- The number a buffer stands for, its first byte the most significant (00_scope.md R11, 20_memory.md R54). -/
def val : List Byte → Nat
  | [] => 0
  | b :: bs => b.toNat * 256 ^ bs.length + val bs

end Sys2Proof.Machine
end

