-- ==== Sys2Proof/Machine/BufferCombination.lean ====
section
/-! DEFINITION. `XORINTO`, `XORTO` and `XORR` (41_buffer_combination.md). Lengths are compared before anything is written
(R133), and every operand is read from the state before the command (20_memory.md R58). -/

namespace Sys2Proof.Machine

/-- `XORINTO rd, ra` with X = `rd`, Y = `ra` (41_buffer_combination.md R120). -/
def execXorinto (rd ra : Reg) (s : State) : Result :=
  s.issueEffect fun s =>
    if s.count rd < s.count ra then s.raiseFault .lengthPrecondition
    else s.setCells rd 0 (xorBytes (s.slice rd (s.count ra)) (s.slice ra (s.count ra)))

/-- `XORTO rd, ra, rb` with Z = `rd`, X = `ra`, Y = `rb` (41_buffer_combination.md R124). -/
def execXorto (rd ra rb : Reg) (s : State) : Result :=
  s.issueEffect fun s =>
    if s.count rd < s.count rb ∨ s.count ra < s.count rb then s.raiseFault .lengthPrecondition
    else s.setCells rd 0 (xorBytes (s.slice ra (s.count rb)) (s.slice rb (s.count rb)))

/-- `XORR rd, ra, rb` with X = `ra`, Y = `rb` (41_buffer_combination.md R128). -/
def execXorr (rd ra rb : Reg) (s : State) : Result :=
  s.issueEffect fun s =>
    if s.count ra < s.count rb then s.raiseFault .lengthPrecondition
    else
      (s.setCells rd 0 (xorAt (s.buffer ra) (s.count ra - s.count rb) (s.buffer rb))).setLen rd (s.len ra)

end Sys2Proof.Machine
end

