-- ==== Sys2Proof/Machine/BufferManagement.lean ====
section
/-! DEFINITION. `SETLEN` (42_buffer_management.md). -/

namespace Sys2Proof.Machine

/-- `SETLEN rd, imm8` (42_buffer_management.md R140): it touches no cell and raises no fault of its own. The decoder has
refused an immediate above 128 (R141). -/
def execSetlen (rd : Reg) (imm8 : Byte) (s : State) : Result :=
  s.issueEffect fun s => s.setLen rd imm8

end Sys2Proof.Machine
end

