-- ==== Sys2Proof/Machine/Flags.lean ====
section
/-! DEFINITION. The one flag, `CARRY` (10_state.md R28), the carry as a byte and as a mask, and the `STATUS` view (R30). -/

namespace Sys2Proof.Machine

/-- A bit in bit 0 of a byte, the other bits 0. -/
def bitByte (c : Bool) : Byte := if c then 1 else 0

/-- `CARRY <- c` (10_state.md R28). -/
def State.setCarry (s : State) (c : Bool) : State := { s with carry := c }

/-- The mask of the branchless selection: `(0 - v) mod 256` (40_field_arithmetic.md R98, R100). -/
def selectMask (v : Bool) : Byte := 0 - bitByte v

/-- The 2-bit code of a cause (10_state.md R29). -/
def Cause.code : Cause → BitVec 2
  | .none => 0
  | .illegalCommand => 1
  | .unsupportedFieldSize => 2
  | .lengthPrecondition => 3

/-- `STATUS = (CAUSE << 2) | (CARRY << 1) | FAULT` (10_state.md R30). -/
def State.status (s : State) : Byte :=
  (s.cause.code.setWidth 8 <<< 2) ||| (bitByte s.carry <<< 1) ||| bitByte s.fault

end Sys2Proof.Machine
end

