-- ==== Sys2Proof/Machine/FieldArithmetic.lean ====
section
/-! DEFINITION. `SHLC` and `DOUBLE` (40_field_arithmetic.md), and the shift and the reduction they are made of. -/

namespace Sys2Proof.Machine

/-- `FIELD_SIZES`: the buffer lengths, in bytes, on which doubling is defined (00_scope.md R7). -/
def fieldSizes : List Nat := [8, 16, 32, 64, 128]

/-- `shl1` (40_field_arithmetic.md R91): the sequence shifted left by one bit, last byte first, and the bit shifted out. The
carry into the last byte is 0, and of an empty sequence the carry is 0. -/
def shl1 : List Byte → List Byte × Bool
  | [] => ([], false)
  | b :: bs =>
    match shl1 bs with
    | (t, c) => (((b <<< 1) ||| bitByte c) :: t, b.getLsbD 7)

/-- `POLY(L)`, the reduction constant in index order (40_field_arithmetic.md R97). It is defined on the five field sizes; no
rule reads it elsewhere. -/
def poly (len : Nat) : List Byte :=
  match len with
  | 8 => [0x1B]
  | 16 => [0x87]
  | 32 => [0x04, 0x25]
  | 64 => [0x01, 0x25]
  | 128 => [0x08, 0x00, 0x43]
  | _ => []

/-- Step 2 of `DOUBLE` (40_field_arithmetic.md R98, R100): the constant, masked by `v`, XORed into the last `PLEN(L)` bytes,
always. -/
def reduce (t : List Byte) (v : Bool) : List Byte :=
  xorAt t (t.length - (poly t.length).length) ((poly t.length).map (· &&& selectMask v))

/-- Doubling in GF(2^(8L)) of a buffer of a supported length `L` (40_field_arithmetic.md R98, steps 1 to 3). -/
def doubled (s : List Byte) : List Byte := reduce (shl1 s).1 (shl1 s).2

/-- `SHLC rd, ra` (40_field_arithmetic.md R90). -/
def execShlc (rd ra : Reg) (s : State) : Result :=
  s.issueEffect fun s =>
    if s.len rd = s.len ra then
      (s.setCells rd 0 (shl1 (s.buffer ra)).1).setCarry (shl1 (s.buffer ra)).2
    else s.raiseFault .lengthPrecondition

/-- `DOUBLE rd, ra` (40_field_arithmetic.md R98, R101). -/
def execDouble (rd ra : Reg) (s : State) : Result :=
  s.issueEffect fun s =>
    if s.count ra ∈ fieldSizes then
      (s.setCells rd 0 (doubled (s.buffer ra))).setLen rd (s.len ra)
    else s.raiseFault .unsupportedFieldSize

end Sys2Proof.Machine
end

