-- ==== Sys2Proof/Machine/Dispatch.lean ====
section
/-! DEFINITION. The meaning of each command, one arm per constructor. -/

namespace Sys2Proof.Machine

def exec (i : Instr) (s : State) : Host.Outcome State Fault Refusal :=
  match i with
  | .shlc rd ra => Sys2Proof.Machine.execShlc rd ra s
  | .double rd ra => Sys2Proof.Machine.execDouble rd ra s
  | .xorinto rd ra => Sys2Proof.Machine.execXorinto rd ra s
  | .xorto rd ra rb => Sys2Proof.Machine.execXorto rd ra rb s
  | .xorr rd ra rb => Sys2Proof.Machine.execXorr rd ra rb s
  | .setlen rd imm8 => Sys2Proof.Machine.execSetlen rd imm8 s

end Sys2Proof.Machine
end

