-- ==== Sys2Proof/Machine/HostPort.lean ====
section
/-! DEFINITION. The host port: reads and writes of one byte over the address map (20_memory.md R43, R46, R47). It looks at
neither `LEN` nor `FAULT` and never faults (R53, 60_exceptions.md R155). -/

namespace Sys2Proof.Machine

/-- The register a cell's address names: `addr[8:7]` (20_memory.md R43). -/
def addrReg (a : HostAddr) : Reg := Reg.ofBits (a.extractLsb' 7 2)

/-- The index a cell's address names: `addr[6:0]` (20_memory.md R43). -/
def addrIndex (a : HostAddr) : Nat := (a.extractLsb' 0 7).toNat

/-- `MemRead(addr, 1)` (20_memory.md R46): the byte a host read returns. -/
def State.hostRead (s : State) (a : HostAddr) : Byte :=
  if a.getLsbD 9 = false then s.cell (addrReg a) (addrIndex a)
  else if a = 0x200 then s.status
  else if a = 0x204 then s.len .b0
  else if a = 0x205 then s.len .b1
  else if a = 0x206 then s.len .b2
  else if a = 0x207 then s.len .b3
  else 0x00

/-- `MemWrite(addr, 1, v)` (20_memory.md R47): one cell, or nothing. -/
def State.hostWrite (s : State) (a : HostAddr) (v : Byte) : State :=
  if a.getLsbD 9 = false then s.setCell (addrReg a) (addrIndex a) v else s

/-- One host-port access: a read changes nothing but what `h_rdata` shows (20_memory.md R46, 70_reset_and_hazards.md R191). -/
def State.access (s : State) : Access → State
  | .read a => { s with readData := some (s.hostRead a) }
  | .write a v => s.hostWrite a v

/-- The host-port access of an edge, if it has one. -/
def State.accessIfAny (s : State) (a : Option Access) : State :=
  match a with
  | some a => s.access a
  | none => s

end Sys2Proof.Machine
end

