-- ==== Sys2Proof/Machine/Transfer.lean ====
section
/-! DEFINITION. What happens at one rising edge at which the core is idle: reset, or a host access and then a command
(20_memory.md R41, R61; 60_exceptions.md R164). -/

namespace Sys2Proof.Machine

/-- The issue of a command word (30_encoding.md R75, R76; 60_exceptions.md R156): decode first, then the command. -/
def issue (w : Word) (s : State) : Result :=
  match decode w with
  | .command i => exec i s
  | .illegal _ => execIllegal s

/-- The transfers of one edge. `rst` wins over everything (70_reset_and_hazards.md R181); a host access is ordered before a
command of the same edge (20_memory.md R61); an edge with neither changes nothing. -/
def transfer (e : Edge) (s : State) : Result :=
  if e.rst then .next s.resetEdge
  else
    match e.command with
    | some w => issue w (s.accessIfAny e.access)
    | none => .next (s.accessIfAny e.access)

/-- The state once the next edge is taken from the host's list: no read has transferred at it yet. -/
def State.takeEdge (s : State) (rest : List Edge) : State := { s with inputs := rest, readData := none }

/-- One edge of the machine: the next of the host's edges, or an edge at which the host presents nothing. -/
def nextEdge (s : State) : Result :=
  match s.inputs with
  | [] => .next (s.takeEdge [])
  | e :: rest => transfer e (s.takeEdge rest)

/-- The edge that presents one command word and nothing else. -/
def commandEdge (w : Word) : Edge := { rst := false, access := none, command := some w }

/-- The state with one more edge for the host to present next. -/
def State.present (s : State) (e : Edge) : State := { s with inputs := e :: s.inputs }

end Sys2Proof.Machine
end

