-- ==== Sys2Proof/Machine/Step.lean ====
section
/-! DEFINITION. One step: one rising edge at which the core is idle, with all that transfers at it (20_memory.md R41). -/

namespace Sys2Proof.Machine

/-- The step function (10_state.md R27: no program counter; the commands are the ones the host presents). -/
def step (s : State) : Host.Outcome State Fault Refusal := nextEdge s

/-- The state whose very next step issues the opcode table's word `w` of `nbits` bits: the host presents that word first
(DESIGN CHOICE, safe: log entry 1). -/
def State.withFetchWord (s : State) (nbits w : Nat) : State := s.present (commandEdge (tableWord nbits w))

end Sys2Proof.Machine
end

