-- ==== Sys2Proof/Machine/Pins.lean ====
section
/-! DEFINITION. The ports of GFD cycle by cycle (20_memory.md R41, 70_reset_and_hazards.md R186 to R192): the valid/ready
handshake around the transfers of Transfer.lean, for any latency 70_reset_and_hazards.md R196 allows. `step` has no time
(00_scope.md R9) and does not use this layer; it refines the machine, and the timing rules are stated on it. -/

namespace Sys2Proof.Machine

/-- The input signals at one rising edge of `clk` (20_memory.md R41). -/
structure PinInputs where
  rst : Bool
  cmdValid : Bool
  cmd : Word
  hReq : Bool
  hWe : Bool
  hAddr : HostAddr
  hWdata : Byte
deriving DecidableEq, Repr

/-- The output signals in the cycle that ends in a rising edge (20_memory.md R41). `hRdata` is none where the spec leaves it
unspecified (70_reset_and_hazards.md R191). -/
structure PinOutputs where
  cmdReady : Bool
  hReady : Bool
  busy : Bool
  fault : Bool
  hRdata : Option Byte
deriving DecidableEq, Repr

/-- A command in execution: its word, and how many busy edges there are after the next one (70_reset_and_hazards.md R189). -/
structure InFlight where
  word : Word
  more : Nat
deriving DecidableEq, Repr

/-- The machine between two clock edges: the architectural state, and the command in execution if there is one. -/
structure PinState where
  arch : State
  inFlight : Option InFlight
deriving DecidableEq, Repr

/-- Right after reset the core is idle (70_reset_and_hazards.md R180, R185). -/
def PinState.reset : PinState := { arch := State.reset, inFlight := none }

/-- The core is idle: no command is executing (70_reset_and_hazards.md R188). -/
def PinState.idle (p : PinState) : Bool := p.inFlight.isNone

/-- The lengths a command's latency may depend on: `LEN[ra]` alone for `SHLC` and `DOUBLE` (40_field_arithmetic.md R103 (a)),
the lengths of the operand registers, in order, for the others (70_reset_and_hazards.md R196, 41_buffer_combination.md R134).
A word that is no command has no operands (DEDUCED, unsafe where a latency differs there: log entry 11). -/
def operandLens (s : State) : Decoded → List Byte
  | .command (.shlc _ ra) => [s.len ra]
  | .command (.double _ ra) => [s.len ra]
  | .command (.xorinto rd ra) => [s.len rd, s.len ra]
  | .command (.xorto rd ra rb) => [s.len rd, s.len ra, s.len rb]
  | .command (.xorr rd ra rb) => [s.len rd, s.len ra, s.len rb]
  | .command (.setlen rd _) => [s.len rd]
  | .illegal _ => []

/-- `LAT(op, lengths)` of a word issued in `s` (70_reset_and_hazards.md R196): at least 1, and the same whether the command
completes, faults or is discarded (R189). -/
def latency (w : Word) (s : State) : Nat := 1 + Config.extraCycles (opField w) (operandLens s (decode w))

/-- The state once a word's command is complete: all its writes, or its fault entry, together (70_reset_and_hazards.md R192). -/
def State.commit (s : State) (w : Word) : State :=
  match issue w s with
  | .next t => t
  | .fault _ => s
  | .refused _ => s

/-- The host-port access requested at an edge, if any (70_reset_and_hazards.md R186). -/
def PinInputs.request (i : PinInputs) : Option Access :=
  if i.hReq then some (if i.hWe then .write i.hAddr i.hWdata else .read i.hAddr) else none

/-- The command word presented at an edge, if any (70_reset_and_hazards.md R186). -/
def PinInputs.offered (i : PinInputs) : Option Word := if i.cmdValid then some i.cmd else none

/-- The output signals: ready exactly when idle (70_reset_and_hazards.md R188, R190), `fault` the state bit (20_memory.md R41),
and the byte read, from the state before the edge (R191, 20_memory.md R61), only where a read
transfers. At an edge inside reset the ready signals are a DESIGN CHOICE, unsafe for a claim about them there: log entry 10. -/
def PinState.outputs (p : PinState) (i : PinInputs) : PinOutputs where
  cmdReady := p.idle
  hReady := p.idle
  busy := !p.idle
  fault := p.arch.fault
  hRdata := if !i.rst && p.idle && i.hReq && !i.hWe then some (p.arch.hostRead i.hAddr) else none

/-- What transfers at an edge, as an edge of the transfer-level machine: a reset, or what the idle core takes; nothing while a
command executes (70_reset_and_hazards.md R181, R186, R190). -/
def PinState.transferred (p : PinState) (i : PinInputs) : Option Edge :=
  if i.rst then some { rst := true, access := none, command := none }
  else if p.idle then some { rst := false, access := i.request, command := i.offered }
  else none

/-- The core takes a command word in `s`: done at once where the latency is 1, else busy for the cycles that remain
(70_reset_and_hazards.md R189). -/
def startCommand (w : Word) (s : State) : PinState :=
  match latency w s - 1 with
  | 0 => { arch := s.commit w, inFlight := none }
  | more + 1 => { arch := s, inFlight := some { word := w, more := more } }

/-- One more busy edge of the command in execution; the last one completes it (70_reset_and_hazards.md R189, R192). -/
def continueCommand (f : InFlight) (s : State) : PinState :=
  match f.more with
  | 0 => { arch := s.commit f.word, inFlight := none }
  | more + 1 => { arch := s, inFlight := some { word := f.word, more := more } }

/-- One rising edge of `clk` (70_reset_and_hazards.md R186). Reset wins and abandons a command in execution (R181). -/
def pinEdge (p : PinState) (i : PinInputs) : PinState :=
  if i.rst then { arch := p.arch.resetEdge, inFlight := none }
  else
    match p.inFlight with
    | some f => continueCommand f p.arch
    | none =>
      match i.offered with
      | some w => startCommand w (p.arch.accessIfAny i.request)
      | none => { arch := p.arch.accessIfAny i.request, inFlight := none }

/-- The clock edges of a list of inputs, in order. -/
def pinRun (p : PinState) : List PinInputs → PinState
  | [] => p
  | i :: is => pinRun (pinEdge p i) is

/-- What transfers over a list of inputs, in order (20_memory.md R60). -/
def pinTransfers (p : PinState) : List PinInputs → List Edge
  | [] => []
  | i :: is => (p.transferred i).toList ++ pinTransfers (pinEdge p i) is

/-- The output signals over a list of inputs, in order. -/
def pinTrace (p : PinState) : List PinInputs → List PinOutputs
  | [] => []
  | i :: is => p.outputs i :: pinTrace (pinEdge p i) is

/-- The host's duty between one edge and the next (70_reset_and_hazards.md R187): a command or an access that was presented and
did not transfer is presented again, unchanged. -/
def PinState.dutyBetween (p : PinState) (i j : PinInputs) : Prop :=
  (i.rst = true ∨ p.idle = false) →
    (i.cmdValid = true → j.cmdValid = true ∧ j.cmd = i.cmd) ∧
    (i.hReq = true → j.hReq = true ∧ j.hWe = i.hWe ∧ j.hAddr = i.hAddr ∧ j.hWdata = i.hWdata)

/-- The host keeps its duty over a list of inputs (70_reset_and_hazards.md R187). What GFD does otherwise is not specified:
log entry 8 (unsafe without this premise). -/
def keepsDuty (p : PinState) : List PinInputs → Prop
  | [] => True
  | [_] => True
  | i :: j :: is => p.dutyBetween i j ∧ keepsDuty (pinEdge p i) (j :: is)

end Sys2Proof.Machine
end

