-- ==== Sys2Proof/Safety.lean ====
section
/-! DEFINITION. The terms claims use: legal and reachable states, a good end of a run, and what a command leaves unchanged. -/

namespace Sys2Proof.Machine

/-- The invariants of 10_state.md R36, and the canonical form of the cells. -/
structure State.Legal (s : State) : Prop where
  lens : ∀ k, s.count k ≤ Config.capacity
  cause : s.cause = .none ↔ s.fault = false
  cells : Memory.wf s.mem

/-- A state some run from reset reaches (10_state.md R36, 70_reset_and_hazards.md R183): the host may present more edges at
any time, and the machine takes them one step each. -/
inductive Reachable : State → Prop where
  | reset : Reachable State.reset
  | present (s : State) (es : List Edge) : Reachable s → Reachable { s with inputs := s.inputs ++ es }
  | step (s t : State) : Reachable s → step s = .next t → Reachable t

/-- A good end of a run (60_exceptions.md R160, 70_reset_and_hazards.md R195): `FAULT` = 0 in the end state, so no fault was
taken since the last reset. -/
def State.goodEnd (s : State) : Prop := s.fault = false

/-- A list of host transactions that runs to a good end from reset (70_reset_and_hazards.md R195). The spec leaves open whether
an edge with `rst` = 1 may stand in such a list (20_memory.md R40 and R195 name reads, writes and commands): here it may, so a
fault before a reset of the list does not spoil its end. DESIGN CHOICE, unsafe for a claim that reads `SafeRun` alone as `no
fault was ever taken`: log entry 13. -/
def SafeRun (es : List Edge) : Prop :=
  ∃ t, Host.Core.run Sys2Proof.core es.length { State.reset with inputs := es } = .next t ∧ t.goodEnd

/-- The architectural part of a state, exactly 10_state.md R20: the model's own two fields set aside. -/
def State.architectural (s : State) : State := { s with inputs := [], readData := none }

/-- Every cell but `B[rd][0:n]` reads as before. -/
def CellsKeptBut (s t : State) (rd : Reg) (n : Nat) : Prop :=
  ∀ a, (∀ i, i < n → a ≠ cellAddr rd i) → Memory.read t.mem a = Memory.read s.mem a

/-- Every cell reads as before. -/
def CellsKept (s t : State) : Prop := ∀ a, Memory.read t.mem a = Memory.read s.mem a

/-- Every length but `LEN[rd]` is as before. -/
def LensKeptBut (s t : State) (rd : Reg) : Prop := ∀ k, k ≠ rd → t.len k = s.len k

/-- Every length is as before. -/
def LensKept (s t : State) : Prop := ∀ k, t.len k = s.len k

/-- The fault state is as before. -/
def FaultKept (s t : State) : Prop := t.fault = s.fault ∧ t.cause = s.cause

/-- The model's own two fields are as before. -/
def HostSideKept (s t : State) : Prop := t.inputs = s.inputs ∧ t.readData = s.readData

/-- Two states differ at most in bytes: the same lengths and the same fault state (40_field_arithmetic.md R103: lengths are not
secret, bytes and the carry made from them are). -/
def SamePublic (s t : State) : Prop := LensKept s t ∧ FaultKept s t

end Sys2Proof.Machine
end

