-- ==== Sys2Proof/Certificates/Slice0/Obligations.lean ====
section
/-! DEFINITION. The statements for the provers. Helpers of the statements stand first, under `Sys2Proof.Statements`: they are
transcribed from the spec's tables and not from the model's definitions. -/

namespace Sys2Proof.Statements

open Sys2Proof.Machine

/-- A word of format `RR` by the formula of 30_encoding.md R74. -/
def rrWord (op : Nat) (rd ra : Reg) : Word :=
  BitVec.ofNat 16 ((op <<< 12) ||| (rd.bits.toNat <<< 10) ||| (ra.bits.toNat <<< 8))

/-- A word of format `RRR` by the formula of 30_encoding.md R74. -/
def rrrWord (op : Nat) (rd ra rb : Reg) : Word :=
  BitVec.ofNat 16 ((op <<< 12) ||| (rd.bits.toNat <<< 10) ||| (ra.bits.toNat <<< 8) ||| (rb.bits.toNat <<< 6))

/-- A word of format `RI` by the formula of 30_encoding.md R74. -/
def riWord (rd : Reg) (imm8 : Byte) : Word :=
  BitVec.ofNat 16 ((6 <<< 12) ||| (rd.bits.toNat <<< 10) ||| imm8.toNat)

/-- The state with a fault recorded and nothing else changed (60_exceptions.md R158). -/
def afterFault (s : State) (c : Cause) : State := { s with fault := true, cause := c }

/-- The constant's byte that meets byte `i` of a buffer of length `L` (40_field_arithmetic.md R97). -/
def constantByte (L i : Nat) : Byte :=
  match L, i with
  | 8, 7 => 0x1B
  | 16, 15 => 0x87
  | 32, 30 => 0x04
  | 32, 31 => 0x25
  | 64, 62 => 0x01
  | 64, 63 => 0x25
  | 128, 125 => 0x08
  | 128, 127 => 0x43
  | _, _ => 0x00

/-- `PLEN(L)` (40_field_arithmetic.md R97). -/
def constantLength (L : Nat) : Nat :=
  match L with
  | 8 => 1
  | 16 => 1
  | 32 => 2
  | 64 => 2
  | 128 => 3
  | _ => 0

/-- The constant as a number (40_field_arithmetic.md R96). -/
def constantNumber (L : Nat) : Nat :=
  match L with
  | 8 => 0x1B
  | 16 => 0x87
  | 32 => 0x0425
  | 64 => 0x0125
  | 128 => 0x080043
  | _ => 0

/-- The taps of the field of length `L` (40_field_arithmetic.md R99). -/
def taps (L : Nat) : List Nat :=
  match L with
  | 8 => [0, 1, 3, 4]
  | 16 => [0, 1, 2, 7]
  | 32 => [0, 2, 5, 10]
  | 64 => [0, 2, 5, 8]
  | 128 => [0, 1, 6, 19]
  | _ => []

/-- Bit `j` of the number the first `L` bytes of `Bk` stand for (00_scope.md R11). -/
def bufferBit (s : State) (k : Reg) (L j : Nat) : Bool := (s.cell k (L - 1 - j / 8)).getLsbD (j % 8)

/-- The element of GF(2)[x] that the first `L` bytes of `Bk` stand for (00_scope.md R12). -/
noncomputable def element (s : State) (k : Reg) (L : Nat) : Polynomial (ZMod 2) :=
  ∑ j ∈ Finset.range (8 * L), if bufferBit s k L j then Polynomial.X ^ j else 0

/-- The full reduction polynomial of the field of length `L` (40_field_arithmetic.md R96). -/
noncomputable def fieldPolynomial (L : Nat) : Polynomial (ZMod 2) :=
  Polynomial.X ^ (8 * L) + ((taps L).map fun j => (Polynomial.X : Polynomial (ZMod 2)) ^ j).sum

/-- The code of a cause (10_state.md R29). -/
def causeNumber : Cause → Nat
  | .none => 0
  | .illegalCommand => 1
  | .unsupportedFieldSize => 2
  | .lengthPrecondition => 3

/-- When a command faults with `LENGTH_PRECONDITION` (the table of 60_exceptions.md R153). -/
def lengthFault (s : State) : Instr → Prop
  | .shlc rd ra => s.count rd ≠ s.count ra
  | .double _ _ => False
  | .xorinto rd ra => s.count rd < s.count ra
  | .xorto rd ra rb => s.count rd < s.count rb ∨ s.count ra < s.count rb
  | .xorr _ ra rb => s.count ra < s.count rb
  | .setlen _ _ => False

/-- When a command faults with `UNSUPPORTED_FIELD_SIZE` (60_exceptions.md R152). -/
def sizeFault (s : State) : Instr → Prop
  | .double _ ra => s.count ra ≠ 8 ∧ s.count ra ≠ 16 ∧ s.count ra ≠ 32 ∧ s.count ra ≠ 64 ∧ s.count ra ≠ 128
  | _ => False

/-- Bit `b` of byte `i` of the first `L` bytes of `Bk` shifted left by one (40_field_arithmetic.md R93). -/
def shiftedBit (s : State) (k : Reg) (L i b : Nat) : Bool :=
  if b = 0 then decide (i + 1 < L) && (s.cell k (i + 1)).getLsbD 7 else (s.cell k i).getLsbD (b - 1)

/-- The list of edges that presents one edge and then what was to come. -/
def nextInput (s : State) (e : Edge) (rest : List Edge) : Prop := s.inputs = e :: rest

/-- The edge of one host-port access and nothing else. -/
def accessEdge (a : Access) : Edge := { rst := false, access := some a, command := none }

/-- The handshake signals of a cycle, without the data (40_field_arithmetic.md R103). -/
def handshake (o : PinOutputs) : Bool × Bool × Bool × Bool := (o.cmdReady, o.hReady, o.busy, o.fault)

/-- Input signals that differ at most in the byte written. -/
def SameButData (i j : PinInputs) : Prop := { i with hWdata := j.hWdata } = j

/-- The state once the command in execution, if there is one, is complete. -/
def settled (p : PinState) : State :=
  match p.inFlight with
  | none => p.arch
  | some f => p.arch.commit f.word

/-- Every architectural register at its reset value (10_state.md R20, R35). -/
def AllReset (s : State) : Prop :=
  (∀ k i, i < 128 → s.cell k i = 0x00) ∧ (∀ k, s.len k = 0) ∧ s.carry = false ∧ s.fault = false ∧ s.cause = .none

end Sys2Proof.Statements

open Sys2Proof Sys2Proof.Machine Sys2Proof.Statements

/-! ### Encoding (30_encoding.md) -/

/-- R75: two different legal words never decode to the same command, and every command with legal fields has exactly one
word, the encoder's. Both directions of the round trip, over all commands and all words. -/
def Obligations.DecodeAndEncodeAgree : Prop :=
  ∀ (w : Word) (i : Instr), decode w = .command i ↔ i.wf = true ∧ encode i = w

/-- R74: a word decodes to the command of a row iff its fixed bits match (and, for `SETLEN`, `imm8 <= 128`), and then it is
the word the row's formula makes of the decoded fields: its other bits are the row's operand fields. Reserved opcodes are
illegal. -/
def Obligations.DecodeFollowsTheOpcodeMap : Prop :=
  ∀ w : Word,
    ((w &&& 0xF0FF = 0x1000) ↔ ∃ rd ra, decode w = .command (.shlc rd ra)) ∧
    (∀ rd ra, decode w = .command (.shlc rd ra) → w = rrWord 1 rd ra) ∧
    ((w &&& 0xF0FF = 0x2000) ↔ ∃ rd ra, decode w = .command (.double rd ra)) ∧
    (∀ rd ra, decode w = .command (.double rd ra) → w = rrWord 2 rd ra) ∧
    ((w &&& 0xF0FF = 0x3000) ↔ ∃ rd ra, decode w = .command (.xorinto rd ra)) ∧
    (∀ rd ra, decode w = .command (.xorinto rd ra) → w = rrWord 3 rd ra) ∧
    ((w &&& 0xF03F = 0x4000) ↔ ∃ rd ra rb, decode w = .command (.xorto rd ra rb)) ∧
    (∀ rd ra rb, decode w = .command (.xorto rd ra rb) → w = rrrWord 4 rd ra rb) ∧
    ((w &&& 0xF03F = 0x5000) ↔ ∃ rd ra rb, decode w = .command (.xorr rd ra rb)) ∧
    (∀ rd ra rb, decode w = .command (.xorr rd ra rb) → w = rrrWord 5 rd ra rb) ∧
    ((w &&& 0xF300 = 0x6000 ∧ w.toNat % 256 ≤ 128) ↔ ∃ rd imm8, decode w = .command (.setlen rd imm8)) ∧
    (∀ rd imm8, decode w = .command (.setlen rd imm8) → w = riWord rd imm8) ∧
    (w.toNat / 4096 = 0 ∨ 7 ≤ w.toNat / 4096 → ∃ why, decode w = .illegal why)

/-- R76: the illegal words are exactly the listed ones, and one issued with `FAULT` = 0 raises `ILLEGAL_COMMAND`. -/
def Obligations.IllegalWordsAreExactlyTheListed : Prop :=
  (∀ w : Word, (∃ why, decode w = .illegal why) ↔
    (w.toNat / 4096 = 0 ∨ 7 ≤ w.toNat / 4096) ∨
    (w.toNat / 4096 ∈ [1, 2, 3] ∧ w.toNat % 256 ≠ 0) ∨
    (w.toNat / 4096 ∈ [4, 5] ∧ w.toNat % 64 ≠ 0) ∨
    (w.toNat / 4096 = 6 ∧ (w.toNat / 256 % 4 ≠ 0 ∨ 128 < w.toNat % 256))) ∧
  (∃ why, decode 0x0000 = .illegal why) ∧ (∃ why, decode 0xFFFF = .illegal why) ∧
  (∀ (w : Word) (why : IllegalWord) (s : State), decode w = .illegal why → s.fault = false →
    issue w s = .next (afterFault s .illegalCommand))

/-- R77: 692 of the 65536 words are legal, 16 of each `RR` command, 64 of each `RRR` command and 516 of `SETLEN`. -/
def Obligations.LegalWordCounts : Prop :=
  let count (p : Decoded → Bool) : Nat := (List.range 65536).countP fun n => p (decode (BitVec.ofNat 16 n))
  count (fun d => match d with | .command (.shlc _ _) => true | _ => false) = 16 ∧
  count (fun d => match d with | .command (.double _ _) => true | _ => false) = 16 ∧
  count (fun d => match d with | .command (.xorinto _ _) => true | _ => false) = 16 ∧
  count (fun d => match d with | .command (.xorto _ _ _) => true | _ => false) = 64 ∧
  count (fun d => match d with | .command (.xorr _ _ _) => true | _ => false) = 64 ∧
  count (fun d => match d with | .command (.setlen _ _) => true | _ => false) = 516 ∧
  count (fun d => match d with | .command _ => true | _ => false) = 692

/-- The example words of R74 and four illegal words decode as the spec says. -/
def Obligations.SpecExampleWordsDecode : Prop :=
  decode 0x2400 = .command (.double .b1 .b0) ∧ decode 0x1000 = .command (.shlc .b0 .b0) ∧
  decode 0x3100 = .command (.xorinto .b0 .b1) ∧ decode 0x4840 = .command (.xorto .b2 .b0 .b1) ∧
  decode 0x5E40 = .command (.xorr .b3 .b2 .b1) ∧ decode 0x6010 = .command (.setlen .b0 16) ∧
  decode 0x6C80 = .command (.setlen .b3 128) ∧ decode 0x0000 = .illegal .reservedOpcode ∧
  decode 0x30C0 = .illegal .reservedBits ∧ decode 0x6300 = .illegal .reservedBits ∧
  decode 0x6081 = .illegal .immediateAboveCapacity

/-! ### The step -/

/-- A step at an edge without reset that presents a word: the host access of the edge first, then `exec` of the decoded
command; an illegal word raises `ILLEGAL_COMMAND` unless a fault is already recorded. The edge leaves the host's list, and
`withFetchWord` makes its word the next one issued. That the edges stand in the field `inputs` is the model's choice: log
entry 1. -/
def Obligations.StepIssuesTheDecodedCommand : Prop :=
  (∀ (s : State) (e : Edge) (rest : List Edge) (w : Word) (i : Instr),
    nextInput s e rest → e.rst = false → e.command = some w → decode w = .command i →
    step s = exec i ((s.takeEdge rest).accessIfAny e.access)) ∧
  (∀ (s : State) (e : Edge) (rest : List Edge) (w : Word) (why : IllegalWord),
    nextInput s e rest → e.rst = false → e.command = some w → decode w = .illegal why →
    step s = .next (if s.fault then (s.takeEdge rest).accessIfAny e.access
      else afterFault ((s.takeEdge rest).accessIfAny e.access) .illegalCommand)) ∧
  (∀ (s : State) (w : Word) (i : Instr), decode w = .command i →
    step (s.withFetchWord 16 w.toNat) = exec i (s.takeEdge s.inputs))

/-- Every step answers a next state: GFD never stops, and every word has an outcome in every state. -/
def Obligations.EveryStepHasANextState : Prop :=
  (∀ s : State, ∃ t, step s = .next t) ∧ (∀ (w : Word) (s : State), ∃ t, issue w s = .next t)

/-- R61: an edge with both an access and a command does what the access alone and then the command alone do; a read at it
returns the byte from before the command. -/
def Obligations.AccessIsOrderedBeforeCommand : Prop :=
  ∀ (s : State) (a : Access) (w : Word) (rest : List Edge),
    nextInput s { rst := false, access := some a, command := some w } rest →
    ∃ t u v, step s = .next t ∧
      step { s with inputs := accessEdge a :: commandEdge w :: rest } = .next u ∧ step u = .next v ∧
      { t with readData := none } = v ∧ t.readData = u.readData ∧
      (∀ addr, a = .read addr → t.readData = some (s.hostRead addr))

/-! ### The commands -/

/-- R90: `SHLC`. Byte by byte and bit by bit the shift of the buffer held by `ra`; `CARRY` the bit shifted out, 0 for the
empty buffer; nothing else changes. Unequal lengths fault. -/
def Obligations.ShlcShiftsTheWholeBuffer : Prop :=
  ∀ (rd ra : Reg) (s : State), s.Legal → s.fault = false →
    decode (rrWord 1 rd ra) = .command (.shlc rd ra) ∧
    (s.len rd ≠ s.len ra → exec (.shlc rd ra) s = .next (afterFault s .lengthPrecondition)) ∧
    (s.len rd = s.len ra → ∃ t, exec (.shlc rd ra) s = .next t ∧
      (∀ i b, i < s.count ra → b < 8 → (t.cell rd i).getLsbD b = shiftedBit s ra (s.count ra) i b) ∧
      t.carry = (decide (0 < s.count ra) && (s.cell ra 0).getLsbD 7) ∧
      CellsKeptBut s t rd (s.count ra) ∧ LensKept s t ∧ FaultKept s t ∧ HostSideKept s t)

/-- R98: `DOUBLE`. The shift of the buffer held by `ra`, with the constant of its length XORed in when its top bit was 1; the
destination takes the length; `CARRY` is not written. Any other length faults. -/
def Obligations.DoubleShiftsAndReduces : Prop :=
  ∀ (rd ra : Reg) (s : State), s.Legal → s.fault = false →
    decode (rrWord 2 rd ra) = .command (.double rd ra) ∧
    (s.count ra ∉ [8, 16, 32, 64, 128] →
      exec (.double rd ra) s = .next (afterFault s .unsupportedFieldSize)) ∧
    (s.count ra ∈ [8, 16, 32, 64, 128] → ∃ t, exec (.double rd ra) s = .next t ∧
      (∀ i b, i < s.count ra → b < 8 → (t.cell rd i).getLsbD b =
        (shiftedBit s ra (s.count ra) i b ^^
          ((s.cell ra 0).getLsbD 7 && (constantByte (s.count ra) i).getLsbD b))) ∧
      t.len rd = s.len ra ∧ LensKeptBut s t rd ∧ t.carry = s.carry ∧
      CellsKeptBut s t rd (s.count ra) ∧ FaultKept s t ∧ HostSideKept s t)

/-- R120: `XORINTO`, in place and left-aligned. -/
def Obligations.XorintoXorsInPlace : Prop :=
  ∀ (rd ra : Reg) (s : State), s.Legal → s.fault = false →
    decode (rrWord 3 rd ra) = .command (.xorinto rd ra) ∧
    (s.count rd < s.count ra → exec (.xorinto rd ra) s = .next (afterFault s .lengthPrecondition)) ∧
    (s.count ra ≤ s.count rd → ∃ t, exec (.xorinto rd ra) s = .next t ∧
      (∀ i, i < s.count ra → t.cell rd i = s.cell rd i ^^^ s.cell ra i) ∧
      CellsKeptBut s t rd (s.count ra) ∧ LensKept s t ∧ t.carry = s.carry ∧ FaultKept s t ∧ HostSideKept s t)

/-- R124: `XORTO`, into an existing buffer, over the third operand's length. -/
def Obligations.XortoXorsIntoAThirdBuffer : Prop :=
  ∀ (rd ra rb : Reg) (s : State), s.Legal → s.fault = false →
    decode (rrrWord 4 rd ra rb) = .command (.xorto rd ra rb) ∧
    (s.count rd < s.count rb ∨ s.count ra < s.count rb →
      exec (.xorto rd ra rb) s = .next (afterFault s .lengthPrecondition)) ∧
    (s.count rb ≤ s.count rd → s.count rb ≤ s.count ra → ∃ t, exec (.xorto rd ra rb) s = .next t ∧
      (∀ i, i < s.count rb → t.cell rd i = s.cell ra i ^^^ s.cell rb i) ∧
      CellsKeptBut s t rd (s.count rb) ∧ LensKept s t ∧ t.carry = s.carry ∧ FaultKept s t ∧ HostSideKept s t)

/-- R128: `XORR`, right-aligned, returning a new buffer of the longer operand's length. -/
def Obligations.XorrXorsAtTheRight : Prop :=
  ∀ (rd ra rb : Reg) (s : State), s.Legal → s.fault = false →
    decode (rrrWord 5 rd ra rb) = .command (.xorr rd ra rb) ∧
    (s.count ra < s.count rb → exec (.xorr rd ra rb) s = .next (afterFault s .lengthPrecondition)) ∧
    (s.count rb ≤ s.count ra → ∃ t, exec (.xorr rd ra rb) s = .next t ∧
      (∀ i, i < s.count ra - s.count rb → t.cell rd i = s.cell ra i) ∧
      (∀ i, i < s.count rb → t.cell rd (s.count ra - s.count rb + i) =
        s.cell ra (s.count ra - s.count rb + i) ^^^ s.cell rb i) ∧
      t.len rd = s.len ra ∧ LensKeptBut s t rd ∧ CellsKeptBut s t rd (s.count ra) ∧
      t.carry = s.carry ∧ FaultKept s t ∧ HostSideKept s t)

/-- R140: `SETLEN` sets the length and touches nothing else. -/
def Obligations.SetlenWritesOneLength : Prop :=
  ∀ (rd : Reg) (imm8 : Byte) (s : State), imm8.toNat ≤ 128 → s.fault = false →
    decode (riWord rd imm8) = .command (.setlen rd imm8) ∧
    ∃ t, exec (.setlen rd imm8) s = .next t ∧ t.len rd = imm8 ∧ LensKeptBut s t rd ∧ CellsKept s t ∧
      t.carry = s.carry ∧ FaultKept s t ∧ HostSideKept s t

/-- R141: a `SETLEN` pattern with `imm8` above 128 is an illegal word and changes no length; 128 is the largest legal one. -/
def Obligations.SetlenAboveCapacityIsIllegal : Prop :=
  ∀ (rd : Reg) (imm8 : Byte) (s : State), s.fault = false →
    (128 < imm8.toNat → issue (riWord rd imm8) s = .next (afterFault s .illegalCommand)) ∧
    (∃ t, issue (riWord rd 128) s = .next t ∧ t.fault = false ∧ t.len rd = 128)

/-- R142: `SETLEN` to a legal length and back to the old one restores the state: no cell is cleared, whichever of the two is
the longer. -/
def Obligations.SetlenShrinkAndGrowRestores : Prop :=
  ∀ (k : Reg) (n : Byte) (s : State), s.Legal → s.fault = false → n.toNat ≤ 128 →
    ∃ t, exec (.setlen k n) s = .next t ∧ exec (.setlen k (s.len k)) t = .next s

/-- R80: `COPY`, `ZERO` and in-place `DOUBLE` are what their expansions do, and each changes nothing else. -/
def Obligations.PseudoCommandsDoWhatTheySay : Prop :=
  (∀ (d a z : Reg) (s : State), s.Legal → s.fault = false → s.count z = 0 →
    ∃ t, exec (.xorr d a z) s = .next t ∧ t.len d = s.len a ∧ t.buffer d = s.buffer a ∧
      CellsKeptBut s t d (s.count a) ∧ LensKeptBut s t d ∧ t.carry = s.carry ∧ FaultKept s t ∧ HostSideKept s t) ∧
  (∀ (d : Reg) (s : State), s.Legal → s.fault = false →
    ∃ t, exec (.xorinto d d) s = .next t ∧ t.len d = s.len d ∧ t.buffer d = List.replicate (s.count d) 0x00 ∧
      CellsKeptBut s t d (s.count d) ∧ LensKept s t ∧ t.carry = s.carry ∧ FaultKept s t ∧ HostSideKept s t) ∧
  (∀ (d : Reg) (s : State), s.Legal → s.fault = false → s.count d ∈ [8, 16, 32, 64, 128] →
    ∃ t, exec (.double d d) s = .next t ∧ t.buffer d = doubled (s.buffer d) ∧
      CellsKeptBut s t d (s.count d) ∧ LensKept s t ∧ t.carry = s.carry ∧ FaultKept s t ∧ HostSideKept s t)

/-- R126: `XORTO rd, rd, ra` and `XORINTO rd, ra` have the same effect in every state. -/
def Obligations.XortoOntoItselfIsXorinto : Prop :=
  ∀ (rd ra : Reg) (s : State), exec (.xorto rd rd ra) s = exec (.xorinto rd ra) s

/-- R122: `XORINTO` twice restores the whole state when the registers differ; on one register it leaves zeros. -/
def Obligations.XorintoTwiceIsTheIdentity : Prop :=
  ∀ (rd ra : Reg) (s : State), s.Legal → s.fault = false →
    (rd ≠ ra → s.count ra ≤ s.count rd →
      ∃ t, exec (.xorinto rd ra) s = .next t ∧ exec (.xorinto rd ra) t = .next s) ∧
    (∃ t u, exec (.xorinto rd rd) s = .next t ∧ exec (.xorinto rd rd) t = .next u ∧
      t.buffer rd = List.replicate (s.count rd) 0x00 ∧ u.buffer rd = List.replicate (s.count rd) 0x00)

/-- R105: `DOUBLE` is `SHLC` followed, when and only when `CARRY` = 1, by `XORR` with the constant. Only `CARRY` differs. -/
def Obligations.DoubleIsShlcThenXorrWithTheConstant : Prop :=
  ∀ (a p : Reg) (s : State), s.Legal → s.fault = false → s.count a ∈ [8, 16, 32, 64, 128] →
    s.count p = constantLength (s.count a) →
    (∀ j, j < s.count p → s.cell p j = constantByte (s.count a) (s.count a - s.count p + j)) →
    ∃ t u, exec (.double a a) s = .next t ∧ exec (.shlc a a) s = .next u ∧
      (u.carry = true → exec (.xorr a a p) u = .next { t with carry := true }) ∧
      (u.carry = false → u = { t with carry := false })

/-! ### The field (00_scope.md R11, R12; 40_field_arithmetic.md) -/

/-- R11: bit `j` of a buffer's number is bit `j mod 8` of byte `L-1-(j div 8)`. -/
def Obligations.BufferNumberBits : Prop :=
  ∀ (bs : List Byte) (j : Nat), j < 8 * bs.length →
    (val bs).testBit j = (bs.getD (bs.length - 1 - j / 8) 0).getLsbD (j % 8)

/-- R92: the shift on numbers, and bit by bit. -/
def Obligations.ShiftIsDoublingOfTheNumber : Prop :=
  ∀ bs : List Byte,
    (1 ≤ bs.length →
      val (shl1 bs).1 = (2 * val bs) % 2 ^ (8 * bs.length) ∧
      (if (shl1 bs).2 then 1 else 0) = val bs / 2 ^ (8 * bs.length - 1) ∧
      (shl1 bs).2 = (bs.getD 0 0).getLsbD 7 ∧
      (∀ j, 1 ≤ j → j < 8 * bs.length → (val (shl1 bs).1).testBit j = (val bs).testBit (j - 1)) ∧
      (val (shl1 bs).1).testBit 0 = false) ∧
    (bs.length = 0 → (shl1 bs).1 = [] ∧ (shl1 bs).2 = false)

/-- R99, bits and number: result bit 0 is the top bit, bit `j` is bit `j-1` with the top bit XORed in at the taps; as a number
the result is `(2 * val) mod 2^n`, XORed with the constant when the top bit is 1. -/
def Obligations.DoubleIsTheReductionMatrix : Prop :=
  ∀ (rd ra : Reg) (s : State), s.Legal → s.fault = false → s.count ra ∈ [8, 16, 32, 64, 128] →
    ∃ t, exec (.double rd ra) s = .next t ∧
      (∀ j, j < 8 * s.count ra → bufferBit t rd (s.count ra) j =
        if j = 0 then bufferBit s ra (s.count ra) (8 * s.count ra - 1)
        else (bufferBit s ra (s.count ra) (j - 1) ^^
          (bufferBit s ra (s.count ra) (8 * s.count ra - 1) && decide (j ∈ taps (s.count ra))))) ∧
      val (t.buffer rd) = (2 * val (s.buffer ra)) % 2 ^ (8 * s.count ra) ^^^
        (if bufferBit s ra (s.count ra) (8 * s.count ra - 1) then constantNumber (s.count ra) else 0)

/-- R12, R98, R99: on all five sizes `DOUBLE` is multiplication by `x` in GF(2)[x] modulo the field's full polynomial. -/
def Obligations.DoubleIsMultiplicationByX : Prop :=
  ∀ (rd ra : Reg) (s : State), s.Legal → s.fault = false → s.count ra ∈ [8, 16, 32, 64, 128] →
    ∃ t, exec (.double rd ra) s = .next t ∧
      element t rd (s.count ra) = (Polynomial.X * element s ra (s.count ra)) %ₘ fieldPolynomial (s.count ra)

/-- R104: doubling is linear over XOR, on the machine: three states that differ in the operand's bytes. -/
def Obligations.DoubleIsLinearOverXor : Prop :=
  ∀ (rd ra : Reg) (s1 s2 s3 : State), s1.Legal → s2.Legal → s3.Legal →
    s1.fault = false → s2.fault = false → s3.fault = false →
    s1.count ra ∈ [8, 16, 32, 64, 128] → s2.count ra = s1.count ra → s3.count ra = s1.count ra →
    (∀ i, i < s1.count ra → s3.cell ra i = s1.cell ra i ^^^ s2.cell ra i) →
    ∃ t1 t2 t3, exec (.double rd ra) s1 = .next t1 ∧ exec (.double rd ra) s2 = .next t2 ∧
      exec (.double rd ra) s3 = .next t3 ∧
      ∀ i, i < s1.count ra → t3.cell rd i = t1.cell rd i ^^^ t2.cell rd i

/-- R104: doubling has no fixed point but zero, and zero is one. -/
def Obligations.DoubleFixesOnlyZero : Prop :=
  ∀ (rd ra : Reg) (s : State), s.Legal → s.fault = false → s.count ra ∈ [8, 16, 32, 64, 128] →
    ∃ t, exec (.double rd ra) s = .next t ∧
      ((∀ i, i < s.count ra → t.cell rd i = s.cell ra i) ↔ ∀ i, i < s.count ra → s.cell ra i = 0x00)

/-- R100: the mask is all zeros or all ones, and the masked selection gives what a branch gives. -/
def Obligations.MaskedSelectionIsTheBranch : Prop :=
  selectMask false = 0x00 ∧ selectMask true = 0xFF ∧
  (∀ (v : Bool) (p : Byte), (selectMask v &&& p) ||| (~~~(selectMask v) &&& 0) = if v then p else 0) ∧
  (∀ (t : List Byte) (v : Bool),
    reduce t v = if v then xorAt t (t.length - (poly t.length).length) (poly t.length) else t)

/-! ### Faults (60_exceptions.md) -/

/-- R150, R151, R152, R153: each cause is raised exactly under its condition, and there is no other fault. -/
def Obligations.FaultsAreExactlyTheThreeCauses : Prop :=
  ∀ (w : Word) (s : State), s.fault = false → ∃ t, issue w s = .next t ∧
    ((t.fault = true ∧ t.cause = .illegalCommand) ↔ ∃ why, decode w = .illegal why) ∧
    ((t.fault = true ∧ t.cause = .unsupportedFieldSize) ↔ ∃ i, decode w = .command i ∧ sizeFault s i) ∧
    ((t.fault = true ∧ t.cause = .lengthPrecondition) ↔ ∃ i, decode w = .command i ∧ lengthFault s i) ∧
    (t.fault = true → t.cause ≠ .none)

/-- R157: a command that faults writes nothing but `FAULT` and `CAUSE`. -/
def Obligations.FaultingCommandWritesNothingElse : Prop :=
  ∀ (w : Word) (s t : State), s.fault = false → issue w s = .next t → t.fault = true → t = afterFault s t.cause

/-- R160: while `FAULT` = 1 every word, legal or illegal, is discarded; host-port accesses work as without it; such a state
is no good end of a run. -/
def Obligations.FaultedCoreDiscardsCommands : Prop :=
  ∀ s : State, s.fault = true →
    (∀ w : Word, issue w s = .next s) ∧
    (∀ (a : HostAddr), a.toNat < 0x200 →
      s.hostRead a = ({ s with fault := false } : State).hostRead a) ∧
    (∀ (a : HostAddr) (v : Byte), s.hostWrite a v =
      { ({ s with fault := false } : State).hostWrite a v with fault := true }) ∧
    ¬ s.goodEnd

/-- R161, R182: only an edge with reset leaves the fault state; and an edge without reset, command or host write changes no
architectural state. -/
def Obligations.OnlyResetLeavesTheFaultState : Prop :=
  (∀ s t : State, step s = .next t → s.fault = true →
    (t.fault = true ∧ t.cause = s.cause) ∨
      ∃ e rest, nextInput s e rest ∧ e.rst = true ∧ AllReset t) ∧
  (∀ s t : State, step s = .next t →
    (∀ e rest, nextInput s e rest → e.rst = false ∧ e.command = none ∧ ∀ a v, e.access ≠ some (.write a v)) →
    t.architectural = s.architectural)

/-- A run without reset that ends well took no fault on the way: every earlier state of it is good too. -/
def Obligations.GoodEndMeansNoFaultOnTheWay : Prop :=
  ∀ es : List Edge, SafeRun es → (∀ e ∈ es, e.rst = false) → ∀ n, n ≤ es.length →
    ∃ t, Host.Core.run Sys2Proof.core n { State.reset with inputs := es } = .next t ∧ t.goodEnd

/-! ### Registers and the host port (10_state.md, 20_memory.md) -/

/-- R28: only a completed `SHLC` writes `CARRY`, with the bit shifted out; no command reads it; the host sees it as bit 1 of
`STATUS`. -/
def Obligations.CarryIsWrittenOnlyByShlc : Prop :=
  (∀ (w : Word) (s t : State), issue w s = .next t →
    (∀ rd ra, decode w = .command (.shlc rd ra) → s.fault = false → s.len rd = s.len ra →
      t.carry = (decide (0 < s.count ra) && (s.cell ra 0).getLsbD 7)) ∧
    (¬ (∃ rd ra, decode w = .command (.shlc rd ra) ∧ s.fault = false ∧ s.len rd = s.len ra) →
      t.carry = s.carry)) ∧
  (∀ (w : Word) (s t : State) (c : Bool), issue w s = .next t →
    ∃ c', issue w { s with carry := c } = .next { t with carry := c' }) ∧
  (∀ s : State, (s.hostRead 0x200).getLsbD 1 = s.carry)

/-- R30: the layout of `STATUS`, its value after reset, and that a host write to it is ignored. -/
def Obligations.StatusShowsFaultCarryAndCause : Prop :=
  (∀ s : State,
    (s.hostRead 0x200).getLsbD 0 = s.fault ∧ (s.hostRead 0x200).getLsbD 1 = s.carry ∧
    (s.hostRead 0x200).toNat / 4 % 4 = causeNumber s.cause ∧ (s.hostRead 0x200).toNat / 16 = 0 ∧
    (∀ v, s.hostWrite 0x200 v = s)) ∧
  State.reset.hostRead 0x200 = 0x00 ∧
  (∀ (s : State) (rest : List Edge), nextInput s (accessEdge (.read 0x200)) rest →
    ∃ t, step s = .next t ∧ t.architectural = s.architectural)

/-- R46: a host-port read follows the address map, at every one of the 1024 addresses, and changes no state. -/
def Obligations.HostReadFollowsTheAddressMap : Prop :=
  ∀ s : State,
    (∀ (k : Reg) (i : Nat), i < 128 → s.hostRead (BitVec.ofNat 10 (128 * k.bits.toNat + i)) = s.cell k i) ∧
    (s.hostRead 0x200).toNat = causeNumber s.cause * 4 + s.carry.toNat * 2 + s.fault.toNat ∧
    (∀ k : Reg, s.hostRead (BitVec.ofNat 10 (0x204 + k.bits.toNat)) = s.len k) ∧
    (∀ a : HostAddr, 0x200 ≤ a.toNat → a.toNat ≠ 0x200 → (a.toNat < 0x204 ∨ 0x207 < a.toNat) →
      s.hostRead a = 0x00) ∧
    (∀ (a : HostAddr) (rest : List Edge), nextInput s (accessEdge (.read a)) rest →
      step s = .next { s with inputs := rest, readData := some (s.hostRead a) })

/-- R47: a host-port write changes the one cell its address names, or nothing: afterwards that address reads as written and
every other address of the host space as before, and no other state is touched. -/
def Obligations.HostWriteChangesOneCell : Prop :=
  ∀ (s : State) (a : HostAddr) (v : Byte) (rest : List Edge), s.Legal → nextInput s (accessEdge (.write a v)) rest →
    ∃ t, step s = .next t ∧
      (∀ b : HostAddr, t.hostRead b = if b = a ∧ a.toNat < 0x200 then v else s.hostRead b) ∧
      (0x200 ≤ a.toNat → t.architectural = s.architectural) ∧
      LensKept s t ∧ t.carry = s.carry ∧ FaultKept s t

/-- Cells at and above a register's length never reach a result: two states that agree on the lengths, the fault state and
the buffers held stay so, and a cell where they come to differ is one the command did not write. -/
def Obligations.StaleCellsReachNoResult : Prop :=
  ∀ (i : Instr) (s s' t t' : State), s.Legal → s'.Legal → SamePublic s s' →
    (∀ k j, j < s.count k → s'.cell k j = s.cell k j) →
    exec i s = .next t → exec i s' = .next t' →
    SamePublic t t' ∧ (s.carry = s'.carry → t.carry = t'.carry) ∧
    ∀ k j, j < 128 → t.cell k j = t'.cell k j ∨ (t.cell k j = s.cell k j ∧ t'.cell k j = s'.cell k j)

/-! ### Invariants -/

/-- Reset leaves a legal state, every architectural register at the value the spec gives. -/
def Obligations.ResetStateIsLegal : Prop := State.reset.Legal ∧ AllReset State.reset ∧ ∀ k, State.reset.buffer k = []

/-- Every step keeps the state legal: lengths at most 128, `CAUSE` = 0 iff `FAULT` = 0, the cells in canonical form (that
form is the model's own). -/
def Obligations.StepKeepsTheStateLegal : Prop :=
  ∀ s t : State, s.Legal → step s = .next t → t.Legal

/-- R36: the invariants of every reachable state. -/
def Obligations.ReachableStatesKeepTheInvariants : Prop :=
  (∀ s, Reachable s → (∀ k, (s.len k).toNat ≤ 128) ∧ (s.cause = .none ↔ s.fault = false)) ∧
  (∀ s t, Reachable s → step s = .next t → s.fault = true → t.fault = false →
    ∃ e rest, nextInput s e rest ∧ e.rst = true)

/-! ### Constant time, reset and the handshake -/

/-- No command's control flow reads a byte: lengths and fault state after a word depend on lengths and fault state alone. -/
def Obligations.ControlDependsOnNoByte : Prop :=
  ∀ (w : Word) (s s' t t' : State), SamePublic s s' → issue w s = .next t → issue w s' = .next t' → SamePublic t t'

/-- R103 (b): two executions that differ only in buffer bytes and in the bytes the host writes show the same handshake
signals, cycle by cycle, for every latency the rules allow and every host that keeps its duty. At an edge inside reset the
signals compared are the model's choice: log entry 10. -/
def Obligations.HandshakeDependsOnNoByte : Prop :=
  ∀ (p q : PinState) (is js : List PinInputs), SamePublic p.arch q.arch → p.inFlight = q.inFlight →
    List.Forall₂ SameButData is js → keepsDuty p is → keepsDuty q js →
    (pinTrace p is).map handshake = (pinTrace q js).map handshake

/-- R103 (a), R134, R196: the latency of `SHLC` and of `DOUBLE` is a function of the opcode and of `LEN[ra]` only, whatever
registers the command names, and that of the others of the opcode and of the lengths of their operand registers; it is at
least 1. -/
def Obligations.LatencyIsAFunctionOfOpcodeAndLengths : Prop :=
  (∀ (w : Word) (s : State), 1 ≤ latency w s) ∧
  ∀ (rd ra rb rd' ra' rb' : Reg) (s s' : State), s.len ra = s'.len ra' →
    latency (rrWord 1 rd ra) s = latency (rrWord 1 rd' ra') s' ∧
    latency (rrWord 2 rd ra) s = latency (rrWord 2 rd' ra') s' ∧
    (s.len rd = s'.len rd' → latency (rrWord 3 rd ra) s = latency (rrWord 3 rd' ra') s') ∧
    (s.len rd = s'.len rd' → s.len rb = s'.len rb' →
      latency (rrrWord 4 rd ra rb) s = latency (rrrWord 4 rd' ra' rb') s' ∧
      latency (rrrWord 5 rd ra rb) s = latency (rrrWord 5 rd' ra' rb') s') ∧
    (∀ m n : Byte, m.toNat ≤ 128 → n.toNat ≤ 128 → latency (riWord ra m) s = latency (riWord ra' n) s')

/-- R180: an edge with reset gives every architectural register its reset value and leaves the core idle, at the pins and as
one step of the machine. -/
def Obligations.ResetEdgeClearsEverything : Prop :=
  (∀ (p : PinState) (i : PinInputs), i.rst = true → AllReset (pinEdge p i).arch ∧ (pinEdge p i).idle = true) ∧
  (∀ (s : State) (e : Edge) (rest : List Edge), nextInput s e rest → e.rst = true →
    ∃ t, step s = .next t ∧ AllReset t)

/-- R181: at an edge with reset nothing else transfers and a command in execution is abandoned: the state after it does not
depend on the state or the other signals before it, and more such edges change nothing. -/
def Obligations.ResetWinsOverEverything : Prop :=
  ∀ (p q : PinState) (i j : PinInputs) (is : List PinInputs), i.rst = true → j.rst = true → (∀ x ∈ is, x.rst = true) →
    p.transferred i = some { rst := true, access := none, command := none } ∧
    (pinEdge p i).arch.architectural = (pinEdge q j).arch.architectural ∧
    (pinEdge p i).inFlight = none ∧
    (pinRun (pinEdge p i) is) = pinEdge p i

/-- R185: right after reset, with `rst` released, the core is ready, no fault shows, every address reads 0x00, and without a
request the core does nothing. -/
def Obligations.ReadyAndZeroAfterReset : Prop :=
  (∀ i : PinInputs, i.rst = false → (PinState.reset.outputs i).cmdReady = true ∧ (PinState.reset.outputs i).hReady = true ∧
    (PinState.reset.outputs i).busy = false ∧ (PinState.reset.outputs i).fault = false) ∧
  (∀ a : HostAddr, State.reset.hostRead a = 0x00) ∧
  (∀ i : PinInputs, i.rst = false → i.cmdValid = false → i.hReq = false → pinEdge PinState.reset i = PinState.reset)

/-- R189: a command issued at an edge keeps the core busy, nothing transferring, for `LAT - 1` more edges; then it is idle
again with all the command's writes, or its fault entry, made. -/
def Obligations.CommandKeepsTheCoreBusyForItsLatency : Prop :=
  ∀ (p : PinState) (i : PinInputs) (is : List PinInputs), p.idle = true → i.rst = false → i.cmdValid = true →
    (∀ x ∈ is, x.rst = false) → is.length + 1 = latency i.cmd (p.arch.accessIfAny i.request) →
    keepsDuty p (i :: is) →
    (∀ (m : Nat) (x : PinInputs), m < is.length → x.rst = false →
      ((pinRun (pinEdge p i) (is.take m)).outputs x).cmdReady = false ∧
      ((pinRun (pinEdge p i) (is.take m)).outputs x).hReady = false ∧
      ((pinRun (pinEdge p i) (is.take m)).outputs x).busy = true ∧
      ((pinRun (pinEdge p i) (is.take m)).outputs x).fault = p.arch.fault ∧
      (pinRun (pinEdge p i) (is.take m)).transferred x = none) ∧
    (pinRun (pinEdge p i) is).idle = true ∧
    issue i.cmd (p.arch.accessIfAny i.request) = .next (pinRun (pinEdge p i) is).arch

/-- The handshake refines the machine: whatever the latencies and wherever reset falls, the architectural state at the pins
(the command in execution, if any, completed) is the one `step` reaches on the transfers that happened. -/
def Obligations.HandshakeRefinesTheTransfers : Prop :=
  ∀ (p : PinState) (is : List PinInputs), p.idle = true → keepsDuty p is →
    ∃ t, Host.Core.run Sys2Proof.core (pinTransfers p is).length { p.arch with inputs := pinTransfers p is } = .next t ∧
      t.architectural = (settled (pinRun p is)).architectural
end

