-- ==== Sys2Proof/Laws/State.lean ====
section
/-! SUPPORT. What each update of the state does to each field: no later proof unfolds a record update. -/

namespace Sys2Proof.Machine

/-! ### setCarry, raiseFault, takeEdge, present, resetEdge -/

@[simp] theorem State.setCarry_mem (s : State) (c : Bool) : (s.setCarry c).mem = s.mem := rfl
@[simp] theorem State.setCarry_carry (s : State) (c : Bool) : (s.setCarry c).carry = c := rfl
@[simp] theorem State.setCarry_fault (s : State) (c : Bool) : (s.setCarry c).fault = s.fault := rfl
@[simp] theorem State.setCarry_cause (s : State) (c : Bool) : (s.setCarry c).cause = s.cause := rfl
@[simp] theorem State.setCarry_inputs (s : State) (c : Bool) : (s.setCarry c).inputs = s.inputs := rfl
@[simp] theorem State.setCarry_readData (s : State) (c : Bool) : (s.setCarry c).readData = s.readData := rfl
@[simp] theorem State.setCarry_len0 (s : State) (c : Bool) : (s.setCarry c).len0 = s.len0 := rfl
@[simp] theorem State.setCarry_len1 (s : State) (c : Bool) : (s.setCarry c).len1 = s.len1 := rfl
@[simp] theorem State.setCarry_len2 (s : State) (c : Bool) : (s.setCarry c).len2 = s.len2 := rfl
@[simp] theorem State.setCarry_len3 (s : State) (c : Bool) : (s.setCarry c).len3 = s.len3 := rfl
@[simp] theorem State.raiseFault_mem (s : State) (c : Cause) : (s.raiseFault c).mem = s.mem := rfl
@[simp] theorem State.raiseFault_carry (s : State) (c : Cause) : (s.raiseFault c).carry = s.carry := rfl
@[simp] theorem State.raiseFault_fault (s : State) (c : Cause) : (s.raiseFault c).fault = true := rfl
@[simp] theorem State.raiseFault_cause (s : State) (c : Cause) : (s.raiseFault c).cause = c := rfl
@[simp] theorem State.raiseFault_inputs (s : State) (c : Cause) : (s.raiseFault c).inputs = s.inputs := rfl
@[simp] theorem State.raiseFault_readData (s : State) (c : Cause) : (s.raiseFault c).readData = s.readData := rfl
@[simp] theorem State.raiseFault_len0 (s : State) (c : Cause) : (s.raiseFault c).len0 = s.len0 := rfl
@[simp] theorem State.raiseFault_len1 (s : State) (c : Cause) : (s.raiseFault c).len1 = s.len1 := rfl
@[simp] theorem State.raiseFault_len2 (s : State) (c : Cause) : (s.raiseFault c).len2 = s.len2 := rfl
@[simp] theorem State.raiseFault_len3 (s : State) (c : Cause) : (s.raiseFault c).len3 = s.len3 := rfl
@[simp] theorem State.takeEdge_mem (s : State) (es : List Edge) : (s.takeEdge es).mem = s.mem := rfl
@[simp] theorem State.takeEdge_carry (s : State) (es : List Edge) : (s.takeEdge es).carry = s.carry := rfl
@[simp] theorem State.takeEdge_fault (s : State) (es : List Edge) : (s.takeEdge es).fault = s.fault := rfl
@[simp] theorem State.takeEdge_cause (s : State) (es : List Edge) : (s.takeEdge es).cause = s.cause := rfl
@[simp] theorem State.takeEdge_inputs (s : State) (es : List Edge) : (s.takeEdge es).inputs = es := rfl
@[simp] theorem State.takeEdge_readData (s : State) (es : List Edge) : (s.takeEdge es).readData = none := rfl
@[simp] theorem State.takeEdge_len0 (s : State) (es : List Edge) : (s.takeEdge es).len0 = s.len0 := rfl
@[simp] theorem State.takeEdge_len1 (s : State) (es : List Edge) : (s.takeEdge es).len1 = s.len1 := rfl
@[simp] theorem State.takeEdge_len2 (s : State) (es : List Edge) : (s.takeEdge es).len2 = s.len2 := rfl
@[simp] theorem State.takeEdge_len3 (s : State) (es : List Edge) : (s.takeEdge es).len3 = s.len3 := rfl
@[simp] theorem State.present_mem (s : State) (e : Edge) : (s.present e).mem = s.mem := rfl
@[simp] theorem State.present_carry (s : State) (e : Edge) : (s.present e).carry = s.carry := rfl
@[simp] theorem State.present_fault (s : State) (e : Edge) : (s.present e).fault = s.fault := rfl
@[simp] theorem State.present_cause (s : State) (e : Edge) : (s.present e).cause = s.cause := rfl
@[simp] theorem State.present_inputs (s : State) (e : Edge) : (s.present e).inputs = e :: s.inputs := rfl
@[simp] theorem State.present_readData (s : State) (e : Edge) : (s.present e).readData = s.readData := rfl
@[simp] theorem State.present_len0 (s : State) (e : Edge) : (s.present e).len0 = s.len0 := rfl
@[simp] theorem State.present_len1 (s : State) (e : Edge) : (s.present e).len1 = s.len1 := rfl
@[simp] theorem State.present_len2 (s : State) (e : Edge) : (s.present e).len2 = s.len2 := rfl
@[simp] theorem State.present_len3 (s : State) (e : Edge) : (s.present e).len3 = s.len3 := rfl
@[simp] theorem State.resetEdge_mem (s : State)  : s.resetEdge.mem = [] := rfl
@[simp] theorem State.resetEdge_carry (s : State)  : s.resetEdge.carry = false := rfl
@[simp] theorem State.resetEdge_fault (s : State)  : s.resetEdge.fault = false := rfl
@[simp] theorem State.resetEdge_cause (s : State)  : s.resetEdge.cause = .none := rfl
@[simp] theorem State.resetEdge_inputs (s : State)  : s.resetEdge.inputs = s.inputs := rfl
@[simp] theorem State.resetEdge_readData (s : State)  : s.resetEdge.readData = none := rfl
@[simp] theorem State.resetEdge_len0 (s : State)  : s.resetEdge.len0 = 0 := rfl
@[simp] theorem State.resetEdge_len1 (s : State)  : s.resetEdge.len1 = 0 := rfl
@[simp] theorem State.resetEdge_len2 (s : State)  : s.resetEdge.len2 = 0 := rfl
@[simp] theorem State.resetEdge_len3 (s : State)  : s.resetEdge.len3 = 0 := rfl

/-! ### setLen -/

@[simp] theorem State.setLen_mem (s : State) (k : Reg) (n : Byte) : (s.setLen k n).mem = s.mem := by cases k <;> rfl
@[simp] theorem State.setLen_carry (s : State) (k : Reg) (n : Byte) : (s.setLen k n).carry = s.carry := by cases k <;> rfl
@[simp] theorem State.setLen_fault (s : State) (k : Reg) (n : Byte) : (s.setLen k n).fault = s.fault := by cases k <;> rfl
@[simp] theorem State.setLen_cause (s : State) (k : Reg) (n : Byte) : (s.setLen k n).cause = s.cause := by cases k <;> rfl
@[simp] theorem State.setLen_inputs (s : State) (k : Reg) (n : Byte) : (s.setLen k n).inputs = s.inputs := by cases k <;> rfl
@[simp] theorem State.setLen_readData (s : State) (k : Reg) (n : Byte) : (s.setLen k n).readData = s.readData := by cases k <;> rfl

/-! ### setCell and setCells -/

@[simp] theorem State.setCell_carry (s : State) (k : Reg) (i : Nat) (v : Byte) : (s.setCell k i v).carry = s.carry := by
  unfold State.setCell; split <;> rfl
@[simp] theorem State.setCell_fault (s : State) (k : Reg) (i : Nat) (v : Byte) : (s.setCell k i v).fault = s.fault := by
  unfold State.setCell; split <;> rfl
@[simp] theorem State.setCell_cause (s : State) (k : Reg) (i : Nat) (v : Byte) : (s.setCell k i v).cause = s.cause := by
  unfold State.setCell; split <;> rfl
@[simp] theorem State.setCell_inputs (s : State) (k : Reg) (i : Nat) (v : Byte) : (s.setCell k i v).inputs = s.inputs := by
  unfold State.setCell; split <;> rfl
@[simp] theorem State.setCell_readData (s : State) (k : Reg) (i : Nat) (v : Byte) : (s.setCell k i v).readData = s.readData := by
  unfold State.setCell; split <;> rfl
@[simp] theorem State.setCell_len0 (s : State) (k : Reg) (i : Nat) (v : Byte) : (s.setCell k i v).len0 = s.len0 := by
  unfold State.setCell; split <;> rfl
@[simp] theorem State.setCell_len1 (s : State) (k : Reg) (i : Nat) (v : Byte) : (s.setCell k i v).len1 = s.len1 := by
  unfold State.setCell; split <;> rfl
@[simp] theorem State.setCell_len2 (s : State) (k : Reg) (i : Nat) (v : Byte) : (s.setCell k i v).len2 = s.len2 := by
  unfold State.setCell; split <;> rfl
@[simp] theorem State.setCell_len3 (s : State) (k : Reg) (i : Nat) (v : Byte) : (s.setCell k i v).len3 = s.len3 := by
  unfold State.setCell; split <;> rfl
@[simp] theorem State.setCells_carry (s : State) (k : Reg) (i : Nat) (bs : List Byte) :
    (s.setCells k i bs).carry = s.carry := by
  induction bs generalizing s i with
  | nil => rfl
  | cons b bs ih => simp [State.setCells, ih]
@[simp] theorem State.setCells_fault (s : State) (k : Reg) (i : Nat) (bs : List Byte) :
    (s.setCells k i bs).fault = s.fault := by
  induction bs generalizing s i with
  | nil => rfl
  | cons b bs ih => simp [State.setCells, ih]
@[simp] theorem State.setCells_cause (s : State) (k : Reg) (i : Nat) (bs : List Byte) :
    (s.setCells k i bs).cause = s.cause := by
  induction bs generalizing s i with
  | nil => rfl
  | cons b bs ih => simp [State.setCells, ih]
@[simp] theorem State.setCells_inputs (s : State) (k : Reg) (i : Nat) (bs : List Byte) :
    (s.setCells k i bs).inputs = s.inputs := by
  induction bs generalizing s i with
  | nil => rfl
  | cons b bs ih => simp [State.setCells, ih]
@[simp] theorem State.setCells_readData (s : State) (k : Reg) (i : Nat) (bs : List Byte) :
    (s.setCells k i bs).readData = s.readData := by
  induction bs generalizing s i with
  | nil => rfl
  | cons b bs ih => simp [State.setCells, ih]
@[simp] theorem State.setCells_len0 (s : State) (k : Reg) (i : Nat) (bs : List Byte) :
    (s.setCells k i bs).len0 = s.len0 := by
  induction bs generalizing s i with
  | nil => rfl
  | cons b bs ih => simp [State.setCells, ih]
@[simp] theorem State.setCells_len1 (s : State) (k : Reg) (i : Nat) (bs : List Byte) :
    (s.setCells k i bs).len1 = s.len1 := by
  induction bs generalizing s i with
  | nil => rfl
  | cons b bs ih => simp [State.setCells, ih]
@[simp] theorem State.setCells_len2 (s : State) (k : Reg) (i : Nat) (bs : List Byte) :
    (s.setCells k i bs).len2 = s.len2 := by
  induction bs generalizing s i with
  | nil => rfl
  | cons b bs ih => simp [State.setCells, ih]
@[simp] theorem State.setCells_len3 (s : State) (k : Reg) (i : Nat) (bs : List Byte) :
    (s.setCells k i bs).len3 = s.len3 := by
  induction bs generalizing s i with
  | nil => rfl
  | cons b bs ih => simp [State.setCells, ih]

/-! ### Lengths through every update -/

theorem State.len_setLen (s : State) (k j : Reg) (n : Byte) : (s.setLen k n).len j = if j = k then n else s.len j := by
  cases k <;> cases j <;> rfl

@[simp] theorem State.len_setLen_same (s : State) (k : Reg) (n : Byte) : (s.setLen k n).len k = n := by
  cases k <;> rfl

theorem State.len_setLen_other (s : State) (k j : Reg) (n : Byte) (h : j ≠ k) : (s.setLen k n).len j = s.len j := by
  simp [State.len_setLen, h]

@[simp] theorem State.len_setCarry (s : State) (c : Bool) (k : Reg) : (s.setCarry c).len k = s.len k := by
  cases k <;> simp [State.len]
@[simp] theorem State.len_raiseFault (s : State) (c : Cause) (k : Reg) : (s.raiseFault c).len k = s.len k := by
  cases k <;> simp [State.len]
@[simp] theorem State.len_takeEdge (s : State) (es : List Edge) (k : Reg) : (s.takeEdge es).len k = s.len k := by
  cases k <;> simp [State.len]
@[simp] theorem State.len_present (s : State) (e : Edge) (k : Reg) : (s.present e).len k = s.len k := by
  cases k <;> simp [State.len]
@[simp] theorem State.len_setCell (s : State) (j : Reg) (i : Nat) (v : Byte) (k : Reg) : (s.setCell j i v).len k = s.len k := by
  cases k <;> simp [State.len]
@[simp] theorem State.len_setCells (s : State) (j : Reg) (i : Nat) (bs : List Byte) (k : Reg) : (s.setCells j i bs).len k = s.len k := by
  cases k <;> simp [State.len]
@[simp] theorem State.len_resetEdge (s : State) (k : Reg) : s.resetEdge.len k = 0 := by cases k <;> rfl

end Sys2Proof.Machine
end

