-- ==== Sys2Proof/Laws/Memory.lean ====
section
/-! SUPPORT. Reading after writing, and the canonical form of the cells, which every memory operation keeps. -/

namespace Sys2Proof.Machine

theorem Memory.read_eq_unlisted (m : Memory) (a : Nat) (h : ∀ c ∈ m, c.1 ≠ a) :
    Memory.read m a = Config.unlistedByte := by
  induction m with
  | nil => rfl
  | cons c m ih =>
    simp only [List.mem_cons, forall_eq_or_imp] at h
    simp [Memory.read, h.1, ih h.2]

theorem Memory.read_push (m : Memory) (a b : Nat) (v : Byte) (h : ∀ c ∈ m, c.1 ≠ a) :
    Memory.read (Memory.push a v m) b = if a = b then v else Memory.read m b := by
  unfold Memory.push
  split
  · next hv =>
    split
    · next hab => subst hab; rw [Memory.read_eq_unlisted m a h, hv]
    · rfl
  · rfl

/-- A byte reads as it was written, every other byte as before (20_memory.md R60). -/
theorem Memory.read_write (m : Memory) (a b : Nat) (v : Byte) (hm : m.Pairwise (fun c d => c.1 < d.1)) :
    Memory.read (Memory.write m a v) b = if a = b then v else Memory.read m b := by
  induction m with
  | nil => exact Memory.read_push [] a b v (by simp)
  | cons c m ih =>
    obtain ⟨k, w⟩ := c
    rw [List.pairwise_cons] at hm
    unfold Memory.write
    split
    · next hak =>
      refine Memory.read_push _ a b v ?_
      intro c hc
      rcases List.mem_cons.1 hc with rfl | hc
      · exact (Nat.ne_of_lt hak).symm
      · have := hm.1 c hc; dsimp only at this; omega
    · split
      · next hak =>
        subst hak
        rw [Memory.read_push m a b v (fun c hc => by have := hm.1 c hc; dsimp only at this; omega)]
        split <;> simp_all [Memory.read]
      · next hne =>
        by_cases hk : k = b
        · subst hk; simp [Memory.read, hne]
        · simp [Memory.read, hk, ih hm.2]

theorem Memory.mem_push (m : Memory) (a : Nat) (v : Byte) (c : Host.Cell) (h : c ∈ Memory.push a v m) :
    (c = (a, v) ∧ v ≠ Config.unlistedByte) ∨ c ∈ m := by
  unfold Memory.push at h
  split at h
  · exact .inr h
  · rcases List.mem_cons.1 h with rfl | h
    · exact .inl ⟨rfl, ‹_›⟩
    · exact .inr h

theorem Memory.mem_write (m : Memory) (a : Nat) (v : Byte) (c : Host.Cell) (h : c ∈ Memory.write m a v) :
    (c = (a, v) ∧ v ≠ Config.unlistedByte) ∨ c ∈ m := by
  induction m with
  | nil => exact Memory.mem_push [] a v c h
  | cons d m ih =>
    obtain ⟨k, w⟩ := d
    unfold Memory.write at h
    split at h
    · exact Memory.mem_push _ a v c h
    · split at h
      · rcases Memory.mem_push m a v c h with h | h
        · exact .inl h
        · exact .inr (List.mem_cons_of_mem _ h)
      · rcases List.mem_cons.1 h with rfl | h
        · exact .inr (List.mem_cons_self ..)
        · rcases ih h with h | h
          · exact .inl h
          · exact .inr (List.mem_cons_of_mem _ h)

theorem Memory.push_pairwise (m : Memory) (a : Nat) (v : Byte) (hm : m.Pairwise (fun c d => c.1 < d.1))
    (ha : ∀ c ∈ m, a < c.1) : (Memory.push a v m).Pairwise (fun c d => c.1 < d.1) := by
  unfold Memory.push
  split
  · exact hm
  · exact List.pairwise_cons.2 ⟨ha, hm⟩

theorem Memory.write_pairwise (m : Memory) (a : Nat) (v : Byte) (hm : m.Pairwise (fun c d => c.1 < d.1)) :
    (Memory.write m a v).Pairwise (fun c d => c.1 < d.1) := by
  induction m with
  | nil => exact Memory.push_pairwise [] a v hm (by simp)
  | cons d m ih =>
    obtain ⟨k, w⟩ := d
    have hm' := List.pairwise_cons.1 hm
    unfold Memory.write
    split
    · next hak =>
      refine Memory.push_pairwise _ a v hm ?_
      intro c hc
      rcases List.mem_cons.1 hc with rfl | hc
      · exact hak
      · exact Nat.lt_trans hak (hm'.1 c hc)
    · split
      · next hak => subst hak; exact Memory.push_pairwise m a v hm'.2 hm'.1
      · refine List.pairwise_cons.2 ⟨?_, ih hm'.2⟩
        intro c hc
        rcases Memory.mem_write m a v c hc with ⟨rfl, -⟩ | hc
        · dsimp only; omega
        · exact hm'.1 c hc

/-- A write to a cell's address keeps the canonical form. -/
theorem Memory.write_wf (m : Memory) (a : Nat) (v : Byte) (ha : a < Config.cellCount) (hm : Memory.wf m) :
    Memory.wf (Memory.write m a v) := by
  refine ⟨Memory.write_pairwise m a v hm.1, fun c hc => ?_⟩
  rcases Memory.mem_write m a v c hc with ⟨rfl, hv⟩ | hc
  · exact ⟨ha, hv⟩
  · exact hm.2 c hc

theorem Memory.wf_nil : Memory.wf [] := ⟨List.Pairwise.nil, by simp⟩

/-- What the first entry of a canonical memory tells: no earlier address reads as anything but the unlisted byte. -/
theorem Memory.read_below_head (k : Nat) (w : Byte) (m : Memory) (hm : Memory.wf ((k, w) :: m)) (a : Nat) (h : a < k) :
    Memory.read ((k, w) :: m) a = Config.unlistedByte := by
  refine Memory.read_eq_unlisted _ _ fun c hc => ?_
  rcases List.mem_cons.1 hc with rfl | hc
  · exact (Nat.ne_of_lt h).symm
  · have := (List.pairwise_cons.1 hm.1).1 c hc; dsimp only at this; omega

theorem Memory.wf_tail (c : Host.Cell) (m : Memory) (hm : Memory.wf (c :: m)) : Memory.wf m :=
  ⟨(List.pairwise_cons.1 hm.1).2, fun d hd => hm.2 d (List.mem_cons_of_mem _ hd)⟩

/-- Canonical memories that read alike are equal as data. -/
theorem Memory.eq_of_read_eq (m n : Memory) (hm : Memory.wf m) (hn : Memory.wf n)
    (h : ∀ a, Memory.read m a = Memory.read n a) : m = n := by
  induction m generalizing n with
  | nil =>
    cases n with
    | nil => rfl
    | cons d n =>
      have := h d.1
      simp only [Memory.read] at this
      exact absurd this.symm (hn.2 d (List.mem_cons_self ..)).2
  | cons c m ih =>
    obtain ⟨k, w⟩ := c
    have hw := (hm.2 (k, w) (List.mem_cons_self ..)).2
    cases n with
    | nil =>
      have := h k
      simp only [Memory.read] at this
      exact absurd this hw
    | cons d n =>
      obtain ⟨j, x⟩ := d
      have hx := (hn.2 (j, x) (List.mem_cons_self ..)).2
      rcases Nat.lt_trichotomy k j with hkj | rfl | hkj
      · have := h k
        rw [Memory.read_below_head j x n hn k hkj] at this
        simp only [Memory.read] at this
        exact absurd this hw
      · have hwx : w = x := by simpa [Memory.read] using h k
        subst hwx
        congr 1
        refine ih n (Memory.wf_tail _ _ hm) (Memory.wf_tail _ _ hn) fun a => ?_
        by_cases hka : k = a
        · subst hka
          rw [Memory.read_eq_unlisted m k (fun c hc => by
              have := (List.pairwise_cons.1 hm.1).1 c hc; dsimp only at this; omega),
            Memory.read_eq_unlisted n k (fun c hc => by
              have := (List.pairwise_cons.1 hn.1).1 c hc; dsimp only at this; omega)]
        · simpa [Memory.read, hka] using h a
      · have := h j
        rw [Memory.read_below_head k w m hm j hkj] at this
        simp only [Memory.read] at this
        exact absurd this.symm hx

end Sys2Proof.Machine
end

