-- ==== Sys2Proof/Laws/Cells.lean ====
section
/-! SUPPORT. Cells of buffer registers: where they stand, what writing some of them does, and that the canonical form holds. -/

namespace Sys2Proof.Machine

theorem Reg.bits_lt (k : Reg) : k.bits.toNat < 4 := k.bits.isLt

theorem Reg.bits_inj (j k : Reg) (h : j.bits.toNat = k.bits.toNat) : j = k := by
  revert h; cases j <;> cases k <;> decide

theorem cellAddr_lt (k : Reg) (i : Nat) (h : i < Config.capacity) : cellAddr k i < Config.cellCount := by
  have := Reg.bits_lt k
  simp only [cellAddr, Config.capacity, Config.cellCount, Config.bufferCount] at *; omega

/-- Cells of different registers, or of different indices, stand at different addresses (20_memory.md R43). -/
theorem cellAddr_inj (j k : Reg) (i l : Nat) (hi : i < Config.capacity) (hl : l < Config.capacity) :
    cellAddr j i = cellAddr k l ↔ j = k ∧ i = l := by
  constructor
  · intro h
    have hjk : j.bits.toNat = k.bits.toNat := by
      simp only [cellAddr, Config.capacity] at *; omega
    exact ⟨Reg.bits_inj j k hjk, by simp only [cellAddr, Config.capacity] at *; omega⟩
  · rintro ⟨rfl, rfl⟩; rfl

theorem State.setCell_wf (s : State) (k : Reg) (i : Nat) (v : Byte) (h : Memory.wf s.mem) :
    Memory.wf (s.setCell k i v).mem := by
  unfold State.setCell
  split
  · exact Memory.write_wf _ _ _ (cellAddr_lt k i ‹_›) h
  · exact h

theorem State.setCells_wf (s : State) (k : Reg) (i : Nat) (bs : List Byte) (h : Memory.wf s.mem) :
    Memory.wf (s.setCells k i bs).mem := by
  induction bs generalizing s i with
  | nil => exact h
  | cons b bs ih => exact ih _ _ (State.setCell_wf s k i b h)

theorem State.read_setCell (s : State) (k : Reg) (i : Nat) (v : Byte) (a : Nat) (h : Memory.wf s.mem)
    (hi : i < Config.capacity) :
    Memory.read (s.setCell k i v).mem a = if cellAddr k i = a then v else Memory.read s.mem a := by
  simp only [State.setCell, hi, if_true]
  exact Memory.read_write _ _ _ _ h.1

theorem State.cell_setCell (s : State) (k j : Reg) (i l : Nat) (v : Byte) (h : Memory.wf s.mem)
    (hi : i < Config.capacity) :
    (s.setCell k i v).cell j l = if k = j ∧ i = l then v else s.cell j l := by
  by_cases hl : l < Config.capacity
  · simp only [State.cell, hl, if_true, State.read_setCell s k i v _ h hi, cellAddr_inj k j i l hi hl]
  · have : ¬ (k = j ∧ i = l) := by rintro ⟨-, rfl⟩; exact hl hi
    simp [State.cell, hl, this]

/-- Everything `setCells` does to the bytes: cell `i + n` takes the `n`-th byte, all others keep theirs. -/
theorem State.read_setCells (s : State) (k : Reg) (i : Nat) (bs : List Byte) (a : Nat) (h : Memory.wf s.mem)
    (hi : i + bs.length ≤ Config.capacity) :
    Memory.read (s.setCells k i bs).mem a =
      if cellAddr k i ≤ a then bs.getD (a - cellAddr k i) (Memory.read s.mem a) else Memory.read s.mem a := by
  induction bs generalizing s i with
  | nil => simp [State.setCells]
  | cons b bs ih =>
    simp only [List.length_cons] at hi
    have hc : cellAddr k (i + 1) = cellAddr k i + 1 := by simp only [cellAddr]; omega
    rw [State.setCells, ih _ _ (State.setCell_wf s k i b h) (by omega),
      State.read_setCell s k i b a h (by omega), hc]
    rcases Nat.lt_trichotomy (cellAddr k i) a with hlt | heq | hgt
    · have h1 : cellAddr k i + 1 ≤ a := hlt
      have h2 : a - cellAddr k i = (a - (cellAddr k i + 1)) + 1 := by omega
      rw [if_pos h1, if_neg (by omega), if_pos (by omega), h2, List.getD_cons_succ]
    · rw [if_neg (by omega), if_pos heq, if_pos (by omega), heq, Nat.sub_self, List.getD_cons_zero]
    · rw [if_neg (by omega), if_neg (by omega), if_neg (by omega)]

/-- The cells `setCells` writes. -/
theorem State.cell_setCells (s : State) (k j : Reg) (i l : Nat) (bs : List Byte) (h : Memory.wf s.mem)
    (hi : i + bs.length ≤ Config.capacity) :
    (s.setCells k i bs).cell j l =
      if k = j ∧ i ≤ l then bs.getD (l - i) (s.cell j l) else s.cell j l := by
  induction bs generalizing s i with
  | nil => simp [State.setCells]
  | cons b bs ih =>
    simp only [List.length_cons] at hi
    rw [State.setCells, ih _ _ (State.setCell_wf s k i b h) (by omega),
      State.cell_setCell s k j i l b h (by omega)]
    by_cases hk : k = j
    · rcases Nat.lt_trichotomy i l with hlt | heq | hgt
      · have h2 : l - i = (l - (i + 1)) + 1 := by omega
        rw [if_pos ⟨hk, hlt⟩, if_neg (by omega), if_pos ⟨hk, by omega⟩, h2, List.getD_cons_succ]
      · rw [if_neg (by omega), if_pos ⟨hk, heq⟩, if_pos ⟨hk, by omega⟩, heq, Nat.sub_self, List.getD_cons_zero]
      · rw [if_neg (by omega), if_neg (by omega), if_neg (by omega)]
    · simp [hk]

@[simp] theorem State.cell_setLen (s : State) (k j : Reg) (n : Byte) (i : Nat) :
    (s.setLen k n).cell j i = s.cell j i := by
  simp [State.cell]

@[simp] theorem State.cell_setCarry (s : State) (c : Bool) (j : Reg) (i : Nat) :
    (s.setCarry c).cell j i = s.cell j i := rfl

@[simp] theorem State.cell_raiseFault (s : State) (c : Cause) (j : Reg) (i : Nat) :
    (s.raiseFault c).cell j i = s.cell j i := rfl

@[simp] theorem State.cell_takeEdge (s : State) (es : List Edge) (j : Reg) (i : Nat) :
    (s.takeEdge es).cell j i = s.cell j i := rfl

@[simp] theorem State.cell_resetEdge (s : State) (j : Reg) (i : Nat) : s.resetEdge.cell j i = 0 := by
  simp only [State.cell, State.resetEdge_mem]; split <;> rfl

end Sys2Proof.Machine
end

