-- ==== Sys2Proof/Laws/Operands.lean ====
section
/-! SUPPORT. Byte sequences: lengths and elements of slices, XORs and the one-bit shift, and the issue of a command. -/

namespace Sys2Proof.Machine

@[simp] theorem State.length_slice (s : State) (k : Reg) (n : Nat) : (s.slice k n).length = n := by
  simp [State.slice]

@[simp] theorem State.length_buffer (s : State) (k : Reg) : (s.buffer k).length = s.count k := by
  simp [State.buffer]

@[simp] theorem State.getElem_slice (s : State) (k : Reg) (n i : Nat) (h : i < (s.slice k n).length) :
    (s.slice k n)[i] = s.cell k i := by
  simp [State.slice]

theorem State.getD_slice (s : State) (k : Reg) (n i : Nat) (d : Byte) (h : i < n) :
    (s.slice k n).getD i d = s.cell k i := by
  rw [List.getD_eq_getElem _ _ (by simpa using h), State.getElem_slice]

@[simp] theorem length_xorBytes (x y : List Byte) : (xorBytes x y).length = min x.length y.length := by
  simp [xorBytes]

theorem getD_xorBytes (x y : List Byte) (i : Nat) (d : Byte) (hx : i < x.length) (hy : i < y.length) :
    (xorBytes x y).getD i d = x.getD i 0 ^^^ y.getD i 0 := by
  have h : i < (xorBytes x y).length := by simp [hx, hy]
  rw [List.getD_eq_getElem _ _ h, List.getD_eq_getElem _ _ hx, List.getD_eq_getElem _ _ hy]
  simp [xorBytes]

@[simp] theorem length_xorAt (t : List Byte) (off : Nat) (y : List Byte) : (xorAt t off y).length = t.length := by
  induction t, off, y using xorAt.induct <;> simp_all [xorAt]

/-- Element `i` of `xorAt`: XORed with element `i - off` of the second sequence where there is one. -/
theorem getD_xorAt (t : List Byte) (off : Nat) (y : List Byte) (i : Nat) (d : Byte) (h : i < t.length) :
    (xorAt t off y).getD i d = t.getD i 0 ^^^ (if off ≤ i then y.getD (i - off) 0 else 0) := by
  induction t, off, y using xorAt.induct generalizing i with
  | case1 => simp at h
  | case2 t ts off y ih =>
    cases i with
    | zero => simp [xorAt]
    | succ i =>
      simp only [List.length_cons, Nat.add_lt_add_iff_right] at h
      simpa [xorAt] using ih i h
  | case3 t ts =>
    simp only [List.length_cons] at h
    cases i with
    | zero => simp [xorAt]
    | succ i => simp [xorAt, List.getElem?_eq_getElem (Nat.lt_of_succ_lt_succ h)]
  | case4 t ts y ys ih =>
    cases i with
    | zero => simp [xorAt]
    | succ i =>
      simp only [List.length_cons, Nat.add_lt_add_iff_right] at h
      simpa [xorAt] using ih i h

@[simp] theorem length_shl1 (s : List Byte) : (shl1 s).1.length = s.length := by
  induction s with
  | nil => rfl
  | cons b bs ih => simp [shl1, ih]

/-- The bit shifted out is bit 7 of the first byte, 0 for the empty sequence (40_field_arithmetic.md R91, R92). -/
theorem shl1_carry (s : List Byte) : (shl1 s).2 = (s.getD 0 0).getLsbD 7 := by
  cases s <;> rfl

/-- Each byte of the shift: its own byte moved up one bit, with bit 7 of the next byte (40_field_arithmetic.md R93). -/
theorem getD_shl1 (s : List Byte) (i : Nat) (d : Byte) (h : i < s.length) :
    (shl1 s).1.getD i d = (s.getD i 0 <<< 1) ||| bitByte ((s.getD (i + 1) 0).getLsbD 7) := by
  induction s generalizing i with
  | nil => simp at h
  | cons b bs ih =>
    cases i with
    | zero => simp [shl1, shl1_carry]
    | succ i =>
      simp only [List.length_cons, Nat.add_lt_add_iff_right] at h
      simpa [shl1] using ih i h

@[simp] theorem length_reduce (t : List Byte) (v : Bool) : (reduce t v).length = t.length := by
  simp [reduce]

@[simp] theorem length_doubled (s : List Byte) : (doubled s).length = s.length := by
  simp [doubled]

theorem selectMask_false : selectMask false = 0x00 := by decide

theorem selectMask_true : selectMask true = 0xFF := by decide

/-- All that the issue of a command can do (60_exceptions.md R160): it is discarded, or its effect happens. -/
theorem State.issueEffect_cases (s t : State) (f : State → State) (h : s.issueEffect f = .next t) :
    (s.fault = true ∧ t = s) ∨ (s.fault = false ∧ t = f s) := by
  unfold State.issueEffect at h
  split at h <;> simp_all

theorem State.issueEffect_running (s : State) (f : State → State) (h : s.fault = false) :
    s.issueEffect f = .next (f s) := by
  simp [State.issueEffect, h]

theorem State.issueEffect_faulted (s : State) (f : State → State) (h : s.fault = true) :
    s.issueEffect f = .next s := by
  simp [State.issueEffect, h]

end Sys2Proof.Machine
end

