-- ==== Sys2Proof/Laws/Exec.lean ====
section
/-! SUPPORT. What each command can do, once for each: discarded, a fault taken, or its effect. -/

namespace Sys2Proof.Machine

theorem execShlc_cases (rd ra : Reg) (s t : State) (h : exec (.shlc rd ra) s = .next t) :
    (s.fault = true ∧ t = s) ∨
      (s.fault = false ∧ s.len rd = s.len ra ∧
        t = (s.setCells rd 0 (shl1 (s.buffer ra)).1).setCarry (shl1 (s.buffer ra)).2) ∨
      (s.fault = false ∧ ¬ (s.len rd = s.len ra) ∧
        t = s.raiseFault .lengthPrecondition) := by
  have h : execShlc rd ra s = .next t := h
  rcases State.issueEffect_cases _ _ _ h with h | ⟨hf, h⟩
  · exact .inl h
  · split at h
    · exact .inr (.inl ⟨hf, ‹_›, h⟩)
    · exact .inr (.inr ⟨hf, ‹_›, h⟩)

theorem execDouble_cases (rd ra : Reg) (s t : State) (h : exec (.double rd ra) s = .next t) :
    (s.fault = true ∧ t = s) ∨
      (s.fault = false ∧ s.count ra ∈ fieldSizes ∧
        t = (s.setCells rd 0 (doubled (s.buffer ra))).setLen rd (s.len ra)) ∨
      (s.fault = false ∧ ¬ (s.count ra ∈ fieldSizes) ∧
        t = s.raiseFault .unsupportedFieldSize) := by
  have h : execDouble rd ra s = .next t := h
  rcases State.issueEffect_cases _ _ _ h with h | ⟨hf, h⟩
  · exact .inl h
  · split at h
    · exact .inr (.inl ⟨hf, ‹_›, h⟩)
    · exact .inr (.inr ⟨hf, ‹_›, h⟩)

theorem execXorinto_cases (rd ra : Reg) (s t : State) (h : exec (.xorinto rd ra) s = .next t) :
    (s.fault = true ∧ t = s) ∨
      (s.fault = false ∧ s.count rd < s.count ra ∧
        t = s.raiseFault .lengthPrecondition) ∨
      (s.fault = false ∧ ¬ (s.count rd < s.count ra) ∧
        t = s.setCells rd 0 (xorBytes (s.slice rd (s.count ra)) (s.slice ra (s.count ra)))) := by
  have h : execXorinto rd ra s = .next t := h
  rcases State.issueEffect_cases _ _ _ h with h | ⟨hf, h⟩
  · exact .inl h
  · split at h
    · exact .inr (.inl ⟨hf, ‹_›, h⟩)
    · exact .inr (.inr ⟨hf, ‹_›, h⟩)

theorem execXorto_cases (rd ra rb : Reg) (s t : State) (h : exec (.xorto rd ra rb) s = .next t) :
    (s.fault = true ∧ t = s) ∨
      (s.fault = false ∧ (s.count rd < s.count rb ∨ s.count ra < s.count rb) ∧
        t = s.raiseFault .lengthPrecondition) ∨
      (s.fault = false ∧ ¬ (s.count rd < s.count rb ∨ s.count ra < s.count rb) ∧
        t = s.setCells rd 0 (xorBytes (s.slice ra (s.count rb)) (s.slice rb (s.count rb)))) := by
  have h : execXorto rd ra rb s = .next t := h
  rcases State.issueEffect_cases _ _ _ h with h | ⟨hf, h⟩
  · exact .inl h
  · split at h
    · exact .inr (.inl ⟨hf, ‹_›, h⟩)
    · exact .inr (.inr ⟨hf, ‹_›, h⟩)

theorem execXorr_cases (rd ra rb : Reg) (s t : State) (h : exec (.xorr rd ra rb) s = .next t) :
    (s.fault = true ∧ t = s) ∨
      (s.fault = false ∧ s.count ra < s.count rb ∧
        t = s.raiseFault .lengthPrecondition) ∨
      (s.fault = false ∧ ¬ (s.count ra < s.count rb) ∧
        t = (s.setCells rd 0 (xorAt (s.buffer ra) (s.count ra - s.count rb) (s.buffer rb))).setLen rd (s.len ra)) := by
  have h : execXorr rd ra rb s = .next t := h
  rcases State.issueEffect_cases _ _ _ h with h | ⟨hf, h⟩
  · exact .inl h
  · split at h
    · exact .inr (.inl ⟨hf, ‹_›, h⟩)
    · exact .inr (.inr ⟨hf, ‹_›, h⟩)

theorem execSetlen_cases (rd : Reg) (imm8 : Byte) (s t : State) (h : exec (.setlen rd imm8) s = .next t) :
    (s.fault = true ∧ t = s) ∨ (s.fault = false ∧ t = s.setLen rd imm8) :=
  State.issueEffect_cases _ _ _ (show execSetlen rd imm8 s = .next t from h)

theorem execIllegal_cases (s t : State) (h : execIllegal s = .next t) :
    (s.fault = true ∧ t = s) ∨ (s.fault = false ∧ t = s.raiseFault .illegalCommand) :=
  State.issueEffect_cases _ _ _ h

end Sys2Proof.Machine
end

