-- ==== Sys2Proof/Laws/HostPort.lean ====
section
/-! SUPPORT. What a host-port access leaves alone, and that it keeps the canonical form. -/

namespace Sys2Proof.Machine

theorem addrIndex_lt (a : HostAddr) : addrIndex a < Config.capacity := (a.extractLsb' 0 7).isLt

@[simp] theorem Reg.ofBits_bits (k : Reg) : Reg.ofBits k.bits = k := by cases k <;> rfl

@[simp] theorem Reg.bits_ofBits (b : BitVec 2) : (Reg.ofBits b).bits = b := by revert b; decide

/-- A host write does one of two things: it writes the one cell its address names, or nothing (20_memory.md R47). -/
theorem State.hostWrite_cases (s : State) (a : HostAddr) (v : Byte) :
    (a.getLsbD 9 = false ∧ s.hostWrite a v = s.setCell (addrReg a) (addrIndex a) v) ∨
      (a.getLsbD 9 = true ∧ s.hostWrite a v = s) := by
  unfold State.hostWrite
  cases h : a.getLsbD 9 <;> simp

/-- All that an access can do to the state. -/
theorem State.accessIfAny_cases (s : State) (a : Option Access) :
    (s.accessIfAny a = s) ∨ (∃ r, s.accessIfAny a = { s with readData := some r }) ∨
      (∃ k i v, i < Config.capacity ∧ s.accessIfAny a = s.setCell k i v) := by
  match a with
  | none => exact .inl rfl
  | some (.read b) => exact .inr (.inl ⟨_, rfl⟩)
  | some (.write b v) =>
    rcases State.hostWrite_cases s b v with ⟨-, h⟩ | ⟨-, h⟩
    · exact .inr (.inr ⟨_, _, _, addrIndex_lt b, h⟩)
    · exact .inl h

@[simp] theorem State.accessIfAny_carry (s : State) (a : Option Access) : (s.accessIfAny a).carry = s.carry := by
  rcases State.accessIfAny_cases s a with h | ⟨r, h⟩ | ⟨k, i, v, -, h⟩ <;> simp [h]

@[simp] theorem State.accessIfAny_fault (s : State) (a : Option Access) : (s.accessIfAny a).fault = s.fault := by
  rcases State.accessIfAny_cases s a with h | ⟨r, h⟩ | ⟨k, i, v, -, h⟩ <;> simp [h]

@[simp] theorem State.accessIfAny_cause (s : State) (a : Option Access) : (s.accessIfAny a).cause = s.cause := by
  rcases State.accessIfAny_cases s a with h | ⟨r, h⟩ | ⟨k, i, v, -, h⟩ <;> simp [h]

@[simp] theorem State.accessIfAny_inputs (s : State) (a : Option Access) : (s.accessIfAny a).inputs = s.inputs := by
  rcases State.accessIfAny_cases s a with h | ⟨r, h⟩ | ⟨k, i, v, -, h⟩ <;> simp [h]

@[simp] theorem State.len_accessIfAny (s : State) (a : Option Access) (k : Reg) :
    (s.accessIfAny a).len k = s.len k := by
  rcases State.accessIfAny_cases s a with h | ⟨r, h⟩ | ⟨k, i, v, -, h⟩ <;> rw [h]
  · cases k <;> rfl
  · simp

theorem State.accessIfAny_wf (s : State) (a : Option Access) (h : Memory.wf s.mem) :
    Memory.wf (s.accessIfAny a).mem := by
  rcases State.accessIfAny_cases s a with e | ⟨r, e⟩ | ⟨k, i, v, -, e⟩ <;> rw [e]
  · exact h
  · exact h
  · exact State.setCell_wf s k i v h

end Sys2Proof.Machine
end

