-- ==== Sys2Proof/Laws/PerInstr.lean ====
section
/-! SUPPORT. Families of laws about commands as syntax, one lemma per constructor. -/

namespace Sys2Proof.Laws

/-- The `mask` and `match` of a command's row in 30_encoding.md R74. -/
def tableRow : Instr → Word × Word
  | .shlc _ _ => (0xF0FF, 0x1000)
  | .double _ _ => (0xF0FF, 0x2000)
  | .xorinto _ _ => (0xF0FF, 0x3000)
  | .xorto _ _ _ => (0xF03F, 0x4000)
  | .xorr _ _ _ => (0xF03F, 0x5000)
  | .setlen _ _ => (0xF300, 0x6000)

/-- The command's word has its row's fixed bits (30_encoding.md R74). -/
def RowMatch.Statement (i : Instr) : Prop := encode i &&& (tableRow i).1 = (tableRow i).2

theorem RowMatch.shlc (rd ra : Reg) : RowMatch.Statement (.shlc rd ra) := by
  cases rd <;> cases ra <;> unfold RowMatch.Statement <;> decide

theorem RowMatch.double (rd ra : Reg) : RowMatch.Statement (.double rd ra) := by
  cases rd <;> cases ra <;> unfold RowMatch.Statement <;> decide

theorem RowMatch.xorinto (rd ra : Reg) : RowMatch.Statement (.xorinto rd ra) := by
  cases rd <;> cases ra <;> unfold RowMatch.Statement <;> decide

theorem RowMatch.xorto (rd ra rb : Reg) : RowMatch.Statement (.xorto rd ra rb) := by
  cases rd <;> cases ra <;> cases rb <;> unfold RowMatch.Statement <;> decide

theorem RowMatch.xorr (rd ra rb : Reg) : RowMatch.Statement (.xorr rd ra rb) := by
  cases rd <;> cases ra <;> cases rb <;> unfold RowMatch.Statement <;> decide

theorem RowMatch.setlen (rd : Reg) (imm8 : Byte) : RowMatch.Statement (.setlen rd imm8) := by
  unfold RowMatch.Statement
  revert imm8
  cases rd <;> decide

end Sys2Proof.Laws
end

