-- ==== Sys2Proof/Laws/Transfer.lean ====
section
/-! SUPPORT. What the issue of a word, one edge, and one clock edge at the pins can do, case by case. -/

namespace Sys2Proof.Machine

theorem issue_command (w : Word) (i : Instr) (s : State) (h : decode w = .command i) : issue w s = exec i s := by
  simp [issue, h]

theorem issue_illegal (w : Word) (why : IllegalWord) (s : State) (h : decode w = .illegal why) :
    issue w s = execIllegal s := by
  simp [issue, h]

theorem transfer_rst (e : Edge) (s : State) (h : e.rst = true) : transfer e s = .next s.resetEdge := by
  simp [transfer, h]

theorem transfer_command (e : Edge) (s : State) (w : Word) (h : e.rst = false) (hw : e.command = some w) :
    transfer e s = issue w (s.accessIfAny e.access) := by
  simp [transfer, h, hw]

theorem transfer_no_command (e : Edge) (s : State) (h : e.rst = false) (hw : e.command = none) :
    transfer e s = .next (s.accessIfAny e.access) := by
  simp [transfer, h, hw]

/-- A completed command is what its issue answers (70_reset_and_hazards.md R192). -/
theorem State.commit_eq (s t : State) (w : Word) (h : issue w s = .next t) : s.commit w = t := by
  simp [State.commit, h]

/-- A command in execution is either done at this edge or goes on with the same state. -/
theorem continueCommand_cases (f : InFlight) (s : State) :
    (f.more = 0 ∧ continueCommand f s = { arch := s.commit f.word, inFlight := none }) ∨
      (∃ n, f.more = n + 1 ∧ continueCommand f s = { arch := s, inFlight := some { word := f.word, more := n } }) := by
  unfold continueCommand
  cases h : f.more with
  | zero => exact .inl ⟨rfl, rfl⟩
  | succ n => exact .inr ⟨n, rfl, rfl⟩

/-- A command taken is done at once where its latency is 1, and else busy for `latency - 1` edges. -/
theorem startCommand_cases (w : Word) (s : State) :
    (latency w s = 1 ∧ startCommand w s = { arch := s.commit w, inFlight := none }) ∨
      (∃ n, latency w s = n + 2 ∧ startCommand w s = { arch := s, inFlight := some { word := w, more := n } }) := by
  have h1 : 1 ≤ latency w s := Nat.le_add_right 1 _
  unfold startCommand
  cases h : latency w s - 1 with
  | zero => exact .inl ⟨by omega, rfl⟩
  | succ n => exact .inr ⟨n, by omega, rfl⟩

end Sys2Proof.Machine
end

