-- ==== Sys2Proof/Tests/Slice0.lean ====
section
/-! SUPPORT. Small tests of one step each, with results taken from spec/95_test_vectors.md, and for every statement with
hypotheses a state and operands that meet them. -/

namespace Sys2Proof.Tests

open Sys2Proof.Machine Sys2Proof.Statements

/-! ### Well-formedness: the one check, and what it refuses -/

theorem test_wf_refuses_setlen_129 : (Instr.setlen .b0 129).wf = false := by decide
theorem test_wf_refuses_setlen_255 : (Instr.setlen .b3 255).wf = false := by decide
theorem test_wf_admits_setlen_128 : (Instr.setlen .b3 128).wf = true := by decide

/-! ### Words written out bit by bit from 30_encoding.md R71: op, rd, ra, rb or reserved or imm8 -/

theorem test_decode_shlc : decode 0b0001_01_00_00000000 = .command (.shlc .b1 .b0) := by decide
theorem test_decode_double : decode 0b0010_11_01_00000000 = .command (.double .b3 .b1) := by decide
theorem test_decode_xorinto : decode 0b0011_10_11_00000000 = .command (.xorinto .b2 .b3) := by decide
theorem test_decode_xorto : decode 0b0100_10_00_01_000000 = .command (.xorto .b2 .b0 .b1) := by decide
theorem test_decode_xorr : decode 0b0101_11_10_01_000000 = .command (.xorr .b3 .b2 .b1) := by decide
theorem test_decode_setlen : decode 0b0110_11_00_10000000 = .command (.setlen .b3 128) := by decide
theorem test_decode_opcode_7 : decode 0b0111_00_00_00000000 = .illegal .reservedOpcode := by decide
theorem test_decode_shlc_bit_0 : decode 0b0001_00_00_00000001 = .illegal .reservedBits := by decide
theorem test_decode_xorto_bit_5 : decode 0b0100_00_00_00_100000 = .illegal .reservedBits := by decide
theorem test_decode_setlen_bit_8 : decode 0b0110_00_01_00000000 = .illegal .reservedBits := by decide
theorem test_decode_setlen_129 : decode 0b0110_00_00_10000001 = .illegal .immediateAboveCapacity := by decide
theorem test_encode_xorr : encode (.xorr .b3 .b2 .b1) = 0x5E40 := by decide
theorem test_encode_setlen : encode (.setlen .b0 16) = 0x6010 := by decide
theorem test_table_word : decodeTableWord 16 0x2400 = some (.double .b1 .b0) := by decide
theorem test_table_word_illegal : decodeTableWord 16 0x6081 = none := by decide

/-! ### One step of each command -/

/-- The state after one step that issues `w`. -/
def after (w : Nat) (s : State) : State :=
  match step (s.withFetchWord 16 w) with
  | .next t => t
  | .fault _ => s
  | .refused _ => s

/-- A state with bytes in `B0` and `B1` and their lengths. -/
def two (x y : List Byte) : State :=
  (((State.reset.setCells .b0 0 x).setLen .b0 (BitVec.ofNat 8 x.length)).setCells .b1 0 y).setLen .b1
    (BitVec.ofNat 8 y.length)

/-- V-S9: bits cross two byte borders. -/
theorem test_shlc_crosses_bytes :
    (after 0x1400 (two [0x40, 0xC0, 0xA5] [0, 0, 0])).buffer .b1 = [0x81, 0x81, 0x4A] := by decide

/-- V-S22: in place, the carry shows in `STATUS`. -/
theorem test_shlc_in_place :
    (after 0x1000 (two [0xC3, 0xA5] [])).buffer .b0 = [0x87, 0x4A] ∧
      (after 0x1000 (two [0xC3, 0xA5] [])).status = 0x02 := by decide

/-- V-D24: the constant of the 64-bit field lands in the last byte, and `CARRY` stays 0. -/
theorem test_double_64 :
    (after 0x2400 (two [0xFE, 0xDC, 0xBA, 0x98, 0x76, 0x54, 0x32, 0x10] [])).buffer .b1 =
        [0xFD, 0xB9, 0x75, 0x30, 0xEC, 0xA8, 0x64, 0x3B] ∧
      (after 0x2400 (two [0xFE, 0xDC, 0xBA, 0x98, 0x76, 0x54, 0x32, 0x10] [])).status = 0x00 := by decide

/-- V-D40: 12 is no field size. -/
theorem test_double_faults_on_12 :
    after 0x2400 ((two [] []).setLen .b0 12) = afterFault ((two [] []).setLen .b0 12) .unsupportedFieldSize := by
  decide

/-- V-X8 on `B0`, `B1`: one byte into byte 0. -/
theorem test_xorinto_left_aligned :
    (after 0x3100 (two [0xDE, 0xAD, 0xBE, 0xEF] [0xFF])).buffer .b0 = [0x21, 0xAD, 0xBE, 0xEF] := by decide

/-- V-X6: the destination is too short. -/
theorem test_xorinto_faults :
    (after 0x3100 (two [0xA5, 0xA5] [0x0F, 0x0F, 0x0F])).status = 0x0D := by decide

/-- V-T3: Z = Y. -/
theorem test_xorto_onto_y :
    (after 0x4440 (two [0x00, 0x11, 0x22, 0x33] [0xFF, 0x00, 0xFF])).buffer .b1 = [0xFF, 0x11, 0xDD] := by decide

/-- V-T5: X is shorter than Y. -/
theorem test_xorto_faults :
    (after 0x4840 ((two [0x00, 0x11] [0xFF, 0x00, 0xFF]).setLen .b2 4)).status = 0x0D := by decide

/-- V-R6: Y is read before any write, and the destination takes X's length. -/
theorem test_xorr_onto_y :
    (after 0x5440 (two [0x00, 0x11, 0x22, 0x33, 0x44, 0x55, 0x66, 0x77] [0xA1, 0xB2, 0xC3])).buffer .b1 =
      [0x00, 0x11, 0x22, 0x33, 0x44, 0xF4, 0xD4, 0xB4] := by decide

/-- V-R8: X is shorter than Y. -/
theorem test_xorr_faults :
    (after 0x5840 (two [0x00, 0x11] [0xFF, 0x00, 0xFF])).status = 0x0D := by decide

/-- V-L1: `SETLEN B3, 128`. -/
theorem test_setlen : after 0x6C80 State.reset = { State.reset with len3 := 128 } := by decide

/-- V-L4: an illegal word. -/
theorem test_illegal_word : (after 0xFFFF State.reset).status = 0x05 := by decide

/-- P4: with `FAULT` = 1 a command is discarded. -/
theorem test_discarded :
    after 0x6008 (afterFault State.reset .unsupportedFieldSize) = afterFault State.reset .unsupportedFieldSize := by
  decide

/-! ### States that meet the statements' hypotheses -/

/-- A legal state: `B0` = 81 .. 01 (8 bytes), `B1` = 0F .. (8 bytes), `B2` = 1B, `B3` empty. -/
def demo : State :=
  { State.reset with mem := [(0, 0x81), (7, 0x01), (128, 0x0F), (256, 0x1B)], len0 := 8, len1 := 8, len2 := 1 }

/-- A legal state at the upper boundary of the lengths: `B0`, `B1` of 128 bytes. -/
def full : State := { demo with len0 := 128, len1 := 128 }

/-- `demo` with other bytes in `B1` and in cells no buffer holds. -/
def demoSecret : State := { demo with mem := [(0, 0x81), (7, 0x01), (9, 0x55), (128, 0xF0), (256, 0x1B)] }

/-- `demo` with a byte beyond the length of `B0`. -/
def demoStale : State := { demo with mem := [(0, 0x81), (7, 0x01), (9, 0x55), (128, 0x0F), (256, 0x1B)] }

/-- `demo` with every byte of `B0` zero. -/
def demoZero : State := { demo with mem := [(128, 0x0F), (256, 0x1B)] }

/-- `demo` with a fault recorded. -/
def demoFaulted : State := afterFault demo .lengthPrecondition

theorem demo_legal : demo.Legal := ⟨by intro k; cases k <;> decide, by decide, by decide⟩
theorem full_legal : full.Legal := ⟨by intro k; cases k <;> decide, by decide, by decide⟩
theorem demoSecret_legal : demoSecret.Legal := ⟨by intro k; cases k <;> decide, by decide, by decide⟩
theorem demoStale_legal : demoStale.Legal := ⟨by intro k; cases k <;> decide, by decide, by decide⟩
theorem demoZero_legal : demoZero.Legal := ⟨by intro k; cases k <;> decide, by decide, by decide⟩

theorem witness_IllegalWordsAreExactlyTheListed :
    decode 0x6081 = .illegal .immediateAboveCapacity ∧ demo.fault = false := by decide

/-- The boundary words of each clause of the list of illegal words. -/
theorem witness_IllegalWords_boundaries :
    decode 0x0FFF = .illegal .reservedOpcode ∧ decode 0x7000 = .illegal .reservedOpcode ∧
      decode 0x3001 = .illegal .reservedBits ∧ decode 0x5001 = .illegal .reservedBits ∧
      decode 0x5040 = .command (.xorr .b0 .b0 .b1) ∧ decode 0x6080 = .command (.setlen .b0 128) := by decide

theorem witness_StepIssuesTheDecodedCommand :
    nextInput (demo.present (commandEdge 0x1400)) (commandEdge 0x1400) [] ∧
      (commandEdge 0x1400).rst = false ∧ (commandEdge 0x1400).command = some 0x1400 ∧
      decode 0x1400 = .command (.shlc .b1 .b0) := ⟨rfl, rfl, rfl, by decide⟩

theorem witness_StepIssues_illegal :
    nextInput (demo.present (commandEdge 0)) (commandEdge 0) [] ∧ (commandEdge 0).rst = false ∧
      (commandEdge 0).command = some 0 ∧ decode 0 = .illegal .reservedOpcode := ⟨rfl, rfl, rfl, by decide⟩

/-- An edge with a host write and a command (program P8). -/
def bothEdge : Edge := { rst := false, access := some (.write 0x000 0x80), command := some 0x2400 }

theorem witness_AccessIsOrderedBeforeCommand : nextInput (demo.present bothEdge) bothEdge [] := rfl

/-- P8: the doubling sees the byte written at the same edge. -/
theorem test_write_before_command :
    (match step ((two [0, 0, 0, 0, 0, 0, 0, 0x01] []).present bothEdge) with
      | .next t => t.buffer .b1
      | .fault _ => []
      | .refused _ => []) = [0, 0, 0, 0, 0, 0, 0, 0x19] := by decide

theorem witness_Shlc_completes : demo.Legal ∧ demo.fault = false ∧ demo.len .b1 = demo.len .b0 :=
  ⟨demo_legal, rfl, rfl⟩
theorem witness_Shlc_completes_empty : demo.Legal ∧ demo.fault = false ∧ demo.len .b3 = demo.len .b3 ∧ demo.count .b3 = 0 :=
  ⟨demo_legal, rfl, rfl, rfl⟩
theorem witness_Shlc_completes_full : full.Legal ∧ full.fault = false ∧ full.len .b1 = full.len .b0 ∧ full.count .b0 = 128 :=
  ⟨full_legal, rfl, rfl, rfl⟩
theorem witness_Shlc_faults : demo.Legal ∧ demo.fault = false ∧ demo.len .b2 ≠ demo.len .b0 :=
  ⟨demo_legal, rfl, by decide⟩

theorem witness_Double_completes : demo.Legal ∧ demo.fault = false ∧ demo.count .b0 ∈ [8, 16, 32, 64, 128] :=
  ⟨demo_legal, rfl, by decide⟩
theorem witness_Double_completes_full : full.Legal ∧ full.fault = false ∧ full.count .b0 ∈ [8, 16, 32, 64, 128] :=
  ⟨full_legal, rfl, by decide⟩
theorem witness_Double_faults : demo.Legal ∧ demo.fault = false ∧ demo.count .b3 ∉ [8, 16, 32, 64, 128] :=
  ⟨demo_legal, rfl, by decide⟩

theorem witness_DoubleIsTheReductionMatrix :
    full.Legal ∧ full.fault = false ∧ full.count .b1 ∈ [8, 16, 32, 64, 128] := ⟨full_legal, rfl, by decide⟩
theorem witness_DoubleIsMultiplicationByX :
    demo.Legal ∧ demo.fault = false ∧ demo.count .b1 ∈ [8, 16, 32, 64, 128] := ⟨demo_legal, rfl, by decide⟩

theorem witness_Xorinto_completes : demo.Legal ∧ demo.fault = false ∧ demo.count .b2 ≤ demo.count .b0 :=
  ⟨demo_legal, rfl, by decide⟩
theorem witness_Xorinto_faults : demo.Legal ∧ demo.fault = false ∧ demo.count .b2 < demo.count .b0 :=
  ⟨demo_legal, rfl, by decide⟩

theorem witness_Xorto_completes :
    demo.Legal ∧ demo.fault = false ∧ demo.count .b2 ≤ demo.count .b0 ∧ demo.count .b2 ≤ demo.count .b1 :=
  ⟨demo_legal, rfl, by decide, by decide⟩
theorem witness_Xorto_faults :
    demo.Legal ∧ demo.fault = false ∧ (demo.count .b2 < demo.count .b0 ∨ demo.count .b1 < demo.count .b0) :=
  ⟨demo_legal, rfl, by decide⟩

theorem witness_Xorr_completes : demo.Legal ∧ demo.fault = false ∧ demo.count .b2 ≤ demo.count .b0 :=
  ⟨demo_legal, rfl, by decide⟩
theorem witness_Xorr_faults : demo.Legal ∧ demo.fault = false ∧ demo.count .b2 < demo.count .b0 :=
  ⟨demo_legal, rfl, by decide⟩

theorem witness_SetlenWritesOneLength : (128 : Byte).toNat ≤ 128 ∧ demo.fault = false := by decide
theorem witness_SetlenAboveCapacityIsIllegal : 128 < (129 : Byte).toNat ∧ demo.fault = false := by decide
theorem witness_SetlenShrinkAndGrowRestores : demo.Legal ∧ demo.fault = false ∧ (128 : Byte).toNat ≤ 128 :=
  ⟨demo_legal, rfl, by decide⟩

theorem witness_PseudoCommands : demo.Legal ∧ demo.fault = false ∧ demo.count .b3 = 0 ∧
    demo.count .b0 ∈ [8, 16, 32, 64, 128] := ⟨demo_legal, rfl, rfl, by decide⟩

theorem witness_XorintoTwiceIsTheIdentity :
    demo.Legal ∧ demo.fault = false ∧ Reg.b0 ≠ Reg.b2 ∧ demo.count .b2 ≤ demo.count .b0 :=
  ⟨demo_legal, rfl, by decide, by decide⟩

theorem witness_DoubleIsShlcThenXorr :
    demo.Legal ∧ demo.fault = false ∧ demo.count .b0 ∈ [8, 16, 32, 64, 128] ∧
      demo.count .b2 = constantLength (demo.count .b0) ∧
      ∀ j, j < demo.count .b2 →
        demo.cell .b2 j = constantByte (demo.count .b0) (demo.count .b0 - demo.count .b2 + j) :=
  ⟨demo_legal, rfl, by decide, by decide, by decide⟩

theorem witness_BufferNumberBits : 9 < 8 * [(0x01 : Byte), 0x02].length := by decide
theorem witness_ShiftIsDoublingOfTheNumber : 1 ≤ [(0x80 : Byte)].length ∧ ([] : List Byte).length = 0 := by decide

theorem witness_DoubleIsLinearOverXor :
    demo.Legal ∧ demoZero.Legal ∧ demo.fault = false ∧ demoZero.fault = false ∧
      demo.count .b0 ∈ [8, 16, 32, 64, 128] ∧ demoZero.count .b0 = demo.count .b0 ∧
      ∀ i, i < demo.count .b0 → demo.cell .b0 i = demo.cell .b0 i ^^^ demoZero.cell .b0 i :=
  ⟨demo_legal, demoZero_legal, rfl, rfl, by decide, rfl, by decide⟩

theorem witness_DoubleFixesOnlyZero :
    demoZero.Legal ∧ demoZero.fault = false ∧ demoZero.count .b0 ∈ [8, 16, 32, 64, 128] ∧
      ∀ i, i < demoZero.count .b0 → demoZero.cell .b0 i = 0x00 :=
  ⟨demoZero_legal, rfl, by decide, by decide⟩

theorem witness_FaultsAreExactlyTheThreeCauses : demo.fault = false := rfl

theorem witness_FaultingCommandWritesNothingElse :
    demo.fault = false ∧ issue 0x2F00 demo = .next (afterFault demo .unsupportedFieldSize) ∧
      (afterFault demo .unsupportedFieldSize).fault = true := ⟨rfl, rfl, rfl⟩

theorem witness_FaultedCoreDiscardsCommands : demoFaulted.fault = true ∧ (0x1FF : HostAddr).toNat < 0x200 := by decide

/-- The edge with reset and nothing else. -/
def rstEdge : Edge := { rst := true, access := none, command := none }

theorem witness_OnlyResetLeavesTheFaultState :
    demoFaulted.fault = true ∧ step (demoFaulted.present rstEdge) = .next State.reset ∧
      nextInput (demoFaulted.present rstEdge) rstEdge [] := ⟨rfl, rfl, rfl⟩

theorem witness_OnlyReset_idle_edge :
    step demo = .next demo ∧
      ∀ e rest, nextInput demo e rest → e.rst = false ∧ e.command = none ∧ ∀ a v, e.access ≠ some (.write a v) :=
  ⟨rfl, fun e rest h => by cases h⟩

theorem witness_GoodEndMeansNoFaultOnTheWay :
    SafeRun [commandEdge 0x6008] ∧ (∀ e ∈ [commandEdge 0x6008], e.rst = false) ∧ 1 ≤ [commandEdge 0x6008].length :=
  ⟨⟨_, rfl, rfl⟩, by decide, by decide⟩

theorem witness_CarryIsWrittenOnlyByShlc :
    decode 0x1400 = .command (.shlc .b1 .b0) ∧ demo.fault = false ∧ demo.len .b1 = demo.len .b0 ∧
      ∃ t, issue 0x1400 demo = .next t := ⟨by decide, rfl, rfl, _, rfl⟩

theorem witness_StatusShowsFaultCarryAndCause :
    nextInput (demo.present (accessEdge (.read 0x200))) (accessEdge (.read 0x200)) [] := rfl

theorem witness_HostReadFollowsTheAddressMap :
    nextInput (demo.present (accessEdge (.read 0x3FF))) (accessEdge (.read 0x3FF)) [] ∧
      0x200 ≤ (0x3FF : HostAddr).toNat ∧ (0x3FF : HostAddr).toNat ≠ 0x200 ∧ 0x207 < (0x3FF : HostAddr).toNat :=
  ⟨rfl, by decide, by decide, by decide⟩

theorem witness_HostRead_reserved_boundaries :
    demo.hostRead 0x1FF = 0 ∧ demo.hostRead 0x201 = 0 ∧ demo.hostRead 0x203 = 0 ∧ demo.hostRead 0x204 = 8 ∧
      demo.hostRead 0x206 = 1 ∧ demo.hostRead 0x208 = 0 ∧ demo.hostRead 0x080 = 0x0F := by decide

theorem witness_HostWriteChangesOneCell :
    (demo.present (accessEdge (.write 0x1FF 0x88))).Legal ∧
      nextInput (demo.present (accessEdge (.write 0x1FF 0x88))) (accessEdge (.write 0x1FF 0x88)) [] ∧
      nextInput (demo.present (accessEdge (.write 0x204 0x10))) (accessEdge (.write 0x204 0x10)) [] ∧
      0x200 ≤ (0x204 : HostAddr).toNat :=
  ⟨⟨demo_legal.lens, demo_legal.cause, demo_legal.cells⟩, rfl, rfl, by decide⟩

theorem witness_StaleCellsReachNoResult :
    demo.Legal ∧ demoStale.Legal ∧ SamePublic demo demoStale ∧ demo ≠ demoStale ∧
      (∀ k j, j < demo.count k → demoStale.cell k j = demo.cell k j) ∧
      (∃ t, exec (.double .b1 .b0) demo = .next t) ∧ ∃ t, exec (.double .b1 .b0) demoStale = .next t := by
  refine ⟨demo_legal, demoStale_legal, ⟨fun k => by cases k <;> rfl, rfl, rfl⟩, by decide, ?_, ⟨_, rfl⟩, ⟨_, rfl⟩⟩
  intro k
  cases k <;> decide

theorem witness_StepKeepsTheStateLegal :
    (demo.present (commandEdge 0x1400)).Legal ∧ ∃ t, step (demo.present (commandEdge 0x1400)) = .next t :=
  ⟨⟨demo_legal.lens, demo_legal.cause, demo_legal.cells⟩, _, rfl⟩

/-- A reachable state with a fault recorded and a reset to come. -/
def reachedFaulted : State := { afterFault State.reset .illegalCommand with inputs := [rstEdge] }

theorem witness_ReachableStatesKeepTheInvariants :
    Reachable reachedFaulted ∧ step reachedFaulted = .next State.reset ∧ reachedFaulted.fault = true ∧
      State.reset.fault = false :=
  ⟨Reachable.step _ _ (Reachable.present State.reset [commandEdge 0, rstEdge] Reachable.reset) rfl, rfl, rfl, rfl⟩

theorem witness_ControlDependsOnNoByte :
    SamePublic demo demoSecret ∧ demo ≠ demoSecret ∧ (∃ t, issue 0x3100 demo = .next t) ∧
      ∃ t, issue 0x3100 demoSecret = .next t :=
  ⟨⟨fun k => by cases k <;> rfl, rfl, rfl⟩, by decide, ⟨_, rfl⟩, _, rfl⟩

/-- Pin signals at which the host presents one word. -/
def presentWord (w : Word) : PinInputs :=
  { rst := false, cmdValid := true, cmd := w, hReq := false, hWe := false, hAddr := 0, hWdata := 0 }

/-- Pin signals at which the host presents nothing. -/
def quiet : PinInputs :=
  { rst := false, cmdValid := false, cmd := 0, hReq := false, hWe := false, hAddr := 0, hWdata := 0 }

/-- Pin signals with reset. -/
def resetPins : PinInputs := { quiet with rst := true }

theorem keepsDuty_quiet (p : PinState) (n : Nat) : keepsDuty p (List.replicate n quiet) := by
  induction n generalizing p with
  | zero => trivial
  | succ n ih =>
    cases n with
    | zero => trivial
    | succ n =>
      refine ⟨fun _ => ⟨fun h => ?_, fun h => ?_⟩, ih (pinEdge p quiet)⟩ <;> exact absurd h (by decide)

/-- A host that presents one word to an idle core and then nothing keeps its duty. -/
theorem keepsDuty_presentWord (p : PinState) (w : Word) (n : Nat) (hp : p.idle = true) :
    keepsDuty p (presentWord w :: List.replicate n quiet) := by
  cases n with
  | zero => trivial
  | succ n =>
    refine ⟨fun h => ?_, keepsDuty_quiet _ (n + 1)⟩
    rcases h with h | h
    · exact absurd h (by simp [presentWord])
    · rw [hp] at h; cases h

/-- An idle core in the state `demo`. -/
def idleDemo : PinState := { arch := demo, inFlight := none }

/-- An idle core in the state `demoSecret`. -/
def idleSecret : PinState := { arch := demoSecret, inFlight := none }

theorem witness_HandshakeDependsOnNoByte :
    SamePublic idleDemo.arch idleSecret.arch ∧ idleDemo.inFlight = idleSecret.inFlight ∧
      List.Forall₂ SameButData [presentWord 0x2400, quiet] [presentWord 0x2400, quiet] ∧
      keepsDuty idleDemo [presentWord 0x2400, quiet] ∧ keepsDuty idleSecret [presentWord 0x2400, quiet] :=
  ⟨⟨fun k => by cases k <;> rfl, rfl, rfl⟩, rfl, .cons rfl (.cons rfl .nil),
    keepsDuty_presentWord idleDemo 0x2400 1 rfl, keepsDuty_presentWord idleSecret 0x2400 1 rfl⟩

/-- `LEN[rd]` differs, `LEN[ra]` does not: `SHLC` and `DOUBLE` must take equally long (40_field_arithmetic.md R103 (a)). -/
theorem witness_LatencyIsAFunctionOfOpcodeAndLengths :
    demo.len .b0 = demo.len .b1 ∧ demo.len .b2 ≠ demo.len .b3 ∧ (0 : Byte).toNat ≤ 128 ∧ (128 : Byte).toNat ≤ 128 := by
  decide

/-- The further premises for the XOR commands: the three lengths agree register by register, in states with other bytes. -/
theorem witness_Latency_xor :
    demo.len .b0 = demoSecret.len .b1 ∧ demo.len .b1 = demoSecret.len .b0 ∧ demo.len .b2 = demoSecret.len .b2 := by
  decide

theorem witness_ResetEdgeClearsEverything :
    resetPins.rst = true ∧ nextInput (demo.present rstEdge) rstEdge [] ∧ rstEdge.rst = true := ⟨rfl, rfl, rfl⟩

theorem witness_ResetWinsOverEverything :
    resetPins.rst = true ∧ ({ presentWord 0x2400 with rst := true } : PinInputs).rst = true ∧
      ∀ x ∈ [resetPins], x.rst = true := by decide

theorem witness_ReadyAndZeroAfterReset : quiet.rst = false ∧ quiet.cmdValid = false ∧ quiet.hReq = false := by decide

/-- Whatever the latency is, the host may wait quietly for exactly that long. -/
theorem witness_CommandKeepsTheCoreBusy :
    let is := List.replicate (Config.extraCycles (opField 0x2400) (operandLens demo (decode 0x2400))) quiet
    idleDemo.idle = true ∧ (presentWord 0x2400).rst = false ∧ (presentWord 0x2400).cmdValid = true ∧
      (∀ x ∈ is, x.rst = false) ∧
      is.length + 1 = latency (presentWord 0x2400).cmd (idleDemo.arch.accessIfAny (presentWord 0x2400).request) ∧
      keepsDuty idleDemo (presentWord 0x2400 :: is) := by
  refine ⟨rfl, rfl, rfl, ?_, ?_, keepsDuty_presentWord _ _ _ rfl⟩
  · intro x hx; rw [List.eq_of_mem_replicate hx]; rfl
  · rw [List.length_replicate, Nat.add_comm]; rfl

theorem witness_HandshakeRefinesTheTransfers :
    idleDemo.idle = true ∧ keepsDuty idleDemo [presentWord 0x2400, quiet] :=
  ⟨rfl, keepsDuty_presentWord idleDemo 0x2400 1 rfl⟩

end Sys2Proof.Tests
end

/-! SUPPORT. What the shared operations keep, used by the statements about the state (10_state.md). -/

namespace Sys2Proof.Machine

/-! ### Decoder: only well-formed commands come out -/

/-- A decoded `SETLEN` carries a length of at most 128 (42_buffer_management.md R141); every other command is well formed
whatever its fields. -/
theorem decode_command_wf (w : Word) (i : Instr) (h : decode w = .command i) : i.wf = true := by
  unfold decode at h
  split at h
  case h_6 =>
    unfold decodeRI at h
    split at h
    · split at h
      · next himm => cases h; exact decide_eq_true himm
      · cases h
    · cases h
  case h_7 => cases h
  all_goals
    simp only [decodeRR, decodeRRR] at h
    split at h <;> cases h
    rfl

/-! ### A change of `CARRY` passes through every operation -/

@[simp] theorem State.setCarry_setCarry (s : State) (c d : Bool) : (s.setCarry c).setCarry d = s.setCarry d := rfl

@[simp] theorem State.count_setCarry (s : State) (c : Bool) (k : Reg) : (s.setCarry c).count k = s.count k := by
  simp [State.count]

@[simp] theorem State.slice_setCarry (s : State) (c : Bool) (k : Reg) (n : Nat) :
    (s.setCarry c).slice k n = s.slice k n := rfl

@[simp] theorem State.buffer_setCarry (s : State) (c : Bool) (k : Reg) : (s.setCarry c).buffer k = s.buffer k := by
  simp [State.buffer]

@[simp] theorem State.raiseFault_setCarry (s : State) (c : Bool) (why : Cause) :
    (s.setCarry c).raiseFault why = (s.raiseFault why).setCarry c := rfl

@[simp] theorem State.setLen_setCarry (s : State) (c : Bool) (k : Reg) (n : Byte) :
    (s.setCarry c).setLen k n = (s.setLen k n).setCarry c := by
  cases k <;> rfl

@[simp] theorem State.setCell_setCarry (s : State) (c : Bool) (k : Reg) (i : Nat) (v : Byte) :
    (s.setCarry c).setCell k i v = (s.setCell k i v).setCarry c := by
  unfold State.setCell
  split <;> rfl

@[simp] theorem State.setCells_setCarry (s : State) (c : Bool) (k : Reg) (i : Nat) (bs : List Byte) :
    (s.setCarry c).setCells k i bs = (s.setCells k i bs).setCarry c := by
  induction bs generalizing s i with
  | nil => rfl
  | cons b bs ih => simp [State.setCells, ih]

/-- Every command is issued as an effect on the state (60_exceptions.md R160), and no effect reads `CARRY`: with another value
before, it gives the same state but for `CARRY` (10_state.md R28). -/
theorem exec_eq_issueEffect (i : Instr) :
    ∃ f : State → State, (∀ s, exec i s = s.issueEffect f) ∧
      ∀ s c, ∃ d, f (s.setCarry c) = (f s).setCarry d := by
  cases i with
  | shlc rd ra =>
    refine ⟨_, fun s => rfl, fun s c => ?_⟩
    by_cases hl : s.len rd = s.len ra
    · exact ⟨(shl1 (s.buffer ra)).2, by simp [hl]⟩
    · exact ⟨c, by simp [hl]⟩
  | double rd ra =>
    refine ⟨_, fun s => rfl, fun s c => ⟨c, ?_⟩⟩
    by_cases hl : s.count ra ∈ fieldSizes <;> simp [hl]
  | xorinto rd ra =>
    refine ⟨_, fun s => rfl, fun s c => ⟨c, ?_⟩⟩
    by_cases hl : s.count rd < s.count ra <;> simp [hl]
  | xorto rd ra rb =>
    refine ⟨_, fun s => rfl, fun s c => ⟨c, ?_⟩⟩
    by_cases hl : s.count rd < s.count rb ∨ s.count ra < s.count rb <;> simp [hl]
  | xorr rd ra rb =>
    refine ⟨_, fun s => rfl, fun s c => ⟨c, ?_⟩⟩
    by_cases hl : s.count ra < s.count rb <;> simp [hl]
  | setlen rd imm8 => exact ⟨_, fun s => rfl, fun s c => ⟨c, State.setLen_setCarry s c rd imm8⟩⟩

/-! ### One step, one edge and the issue of a word, case by case -/

theorem step_nil (s : State) (h : s.inputs = []) : step s = .next (s.takeEdge []) := by
  simp [step, nextEdge, h]

theorem step_cons (s : State) (e : Edge) (rest : List Edge) (h : s.inputs = e :: rest) :
    step s = transfer e (s.takeEdge rest) := by
  simp [step, nextEdge, h]

/-- All that a step can do: nothing is presented, or the next edge of the host's list transfers. -/
theorem step_cases (s t : State) (h : step s = .next t) :
    (s.inputs = [] ∧ t = s.takeEdge []) ∨
      ∃ e rest, s.inputs = e :: rest ∧ transfer e (s.takeEdge rest) = .next t := by
  cases hin : s.inputs with
  | nil =>
    rw [step_nil s hin] at h
    cases h
    exact .inl ⟨rfl, rfl⟩
  | cons e rest => exact .inr ⟨e, rest, rfl, step_cons s e rest hin ▸ h⟩

/-- All that an edge can do: a reset, a host access alone, or a host access and then a command. -/
theorem transfer_cases (e : Edge) (s t : State) (h : transfer e s = .next t) :
    (e.rst = true ∧ t = s.resetEdge) ∨
      (e.rst = false ∧ e.command = none ∧ t = s.accessIfAny e.access) ∨
      ∃ w, e.rst = false ∧ e.command = some w ∧ issue w (s.accessIfAny e.access) = .next t := by
  cases hr : e.rst with
  | true =>
    rw [transfer_rst e s hr] at h
    cases h
    exact .inl ⟨rfl, rfl⟩
  | false =>
    cases hc : e.command with
    | none =>
      rw [transfer_no_command e s hr hc] at h
      cases h
      exact .inr (.inl ⟨rfl, rfl, rfl⟩)
    | some w => exact .inr (.inr ⟨w, rfl, rfl, transfer_command e s w hr hc ▸ h⟩)

/-- A word is issued as the command it decodes to, or as an illegal word. -/
theorem issue_cases (w : Word) (s t : State) (h : issue w s = .next t) :
    (∃ i, decode w = .command i ∧ exec i s = .next t) ∨
      ∃ why, decode w = .illegal why ∧ execIllegal s = .next t := by
  cases hd : decode w with
  | command i => exact .inl ⟨i, rfl, issue_command w i s hd ▸ h⟩
  | illegal why => exact .inr ⟨why, rfl, issue_illegal w why s hd ▸ h⟩

/-- While `FAULT` = 1 every command is discarded (60_exceptions.md R160). -/
theorem exec_faulted (i : Instr) (s : State) (h : s.fault = true) : exec i s = .next s := by
  obtain ⟨f, hf, -⟩ := exec_eq_issueEffect i
  rw [hf, State.issueEffect_faulted s f h]

/-- While `FAULT` = 1 every word, legal or not, is discarded (60_exceptions.md R160). -/
theorem issue_faulted (w : Word) (s : State) (h : s.fault = true) : issue w s = .next s := by
  cases hd : decode w with
  | command i => rw [issue_command w i s hd, exec_faulted i s h]
  | illegal why => rw [issue_illegal w why s hd]; exact State.issueEffect_faulted s _ h

/-- Without reset no edge leaves the fault state (70_reset_and_hazards.md R182). -/
theorem transfer_keeps_fault (e : Edge) (s t : State) (hr : e.rst = false) (hf : s.fault = true)
    (h : transfer e s = .next t) : t.fault = true := by
  have hf' : (s.accessIfAny e.access).fault = true := by rw [State.accessIfAny_fault, hf]
  rcases transfer_cases e s t h with ⟨hr', -⟩ | ⟨-, -, rfl⟩ | ⟨w, -, -, hw⟩
  · rw [hr] at hr'; cases hr'
  · exact hf'
  · rw [issue_faulted w _ hf'] at hw; cases hw; exact hf'

/-! ### Legal states, through every operation -/

namespace State.Legal

variable {s t : State}

theorem reset : State.reset.Legal where
  lens k := by cases k <;> decide
  cause := by decide
  cells := Memory.wf_nil

/-- The model's own two fields are no part of what makes a state legal. -/
theorem withHostSide (h : s.Legal) (es : List Edge) (r : Option Byte) :
    State.Legal { s with inputs := es, readData := r } :=
  ⟨h.lens, h.cause, h.cells⟩

theorem takeEdge (h : s.Legal) (rest : List Edge) : (s.takeEdge rest).Legal := h.withHostSide rest none

theorem resetEdge (s : State) : s.resetEdge.Legal := State.Legal.reset.withHostSide s.inputs none

theorem setCells (h : s.Legal) (k : Reg) (i : Nat) (bs : List Byte) : (s.setCells k i bs).Legal where
  lens j := by simpa [State.count] using h.lens j
  cause := by simpa using h.cause
  cells := State.setCells_wf s k i bs h.cells

theorem setLen (h : s.Legal) (k : Reg) (n : Byte) (hn : n.toNat ≤ Config.capacity) : (s.setLen k n).Legal where
  lens j := by
    rw [State.count, State.len_setLen]
    split
    · exact hn
    · exact h.lens j
  cause := by simpa using h.cause
  cells := by simpa using h.cells

theorem setCarry (h : s.Legal) (c : Bool) : (s.setCarry c).Legal := ⟨h.lens, h.cause, h.cells⟩

theorem raiseFault (h : s.Legal) {c : Cause} (hc : c ≠ .none) : (s.raiseFault c).Legal where
  lens := h.lens
  cause := by simp [hc]
  cells := h.cells

theorem accessIfAny (h : s.Legal) (a : Option Access) : (s.accessIfAny a).Legal where
  lens j := by simpa [State.count] using h.lens j
  cause := by simpa using h.cause
  cells := State.accessIfAny_wf s a h.cells

/-- A command writes buffer bytes, a length that is at most 128 already (another register's, or a well-formed immediate),
`CARRY`, or a fault with its cause. -/
theorem exec (h : s.Legal) (i : Instr) (hi : i.wf = true) (ht : Machine.exec i s = .next t) : t.Legal := by
  cases i with
  | shlc rd ra =>
    rcases execShlc_cases rd ra s t ht with ⟨-, rfl⟩ | ⟨-, -, rfl⟩ | ⟨-, -, rfl⟩
    · exact h
    · exact (h.setCells rd 0 _).setCarry _
    · exact h.raiseFault (by decide)
  | double rd ra =>
    rcases execDouble_cases rd ra s t ht with ⟨-, rfl⟩ | ⟨-, -, rfl⟩ | ⟨-, -, rfl⟩
    · exact h
    · exact (h.setCells rd 0 _).setLen rd _ (h.lens ra)
    · exact h.raiseFault (by decide)
  | xorinto rd ra =>
    rcases execXorinto_cases rd ra s t ht with ⟨-, rfl⟩ | ⟨-, -, rfl⟩ | ⟨-, -, rfl⟩
    · exact h
    · exact h.raiseFault (by decide)
    · exact h.setCells rd 0 _
  | xorto rd ra rb =>
    rcases execXorto_cases rd ra rb s t ht with ⟨-, rfl⟩ | ⟨-, -, rfl⟩ | ⟨-, -, rfl⟩
    · exact h
    · exact h.raiseFault (by decide)
    · exact h.setCells rd 0 _
  | xorr rd ra rb =>
    rcases execXorr_cases rd ra rb s t ht with ⟨-, rfl⟩ | ⟨-, -, rfl⟩ | ⟨-, -, rfl⟩
    · exact h
    · exact h.raiseFault (by decide)
    · exact (h.setCells rd 0 _).setLen rd _ (h.lens ra)
  | setlen rd imm8 =>
    rcases execSetlen_cases rd imm8 s t ht with ⟨-, rfl⟩ | ⟨-, rfl⟩
    · exact h
    · exact h.setLen rd imm8 (of_decide_eq_true hi)

theorem issue (h : s.Legal) (w : Word) (ht : Machine.issue w s = .next t) : t.Legal := by
  rcases issue_cases w s t ht with ⟨i, hd, hi⟩ | ⟨why, -, hi⟩
  · exact h.exec i (decode_command_wf w i hd) hi
  · rcases execIllegal_cases s t hi with ⟨-, rfl⟩ | ⟨-, rfl⟩
    · exact h
    · exact h.raiseFault (by decide)

theorem transfer (h : s.Legal) (e : Edge) (ht : Machine.transfer e s = .next t) : t.Legal := by
  rcases transfer_cases e s t ht with ⟨-, rfl⟩ | ⟨-, -, rfl⟩ | ⟨w, -, -, hw⟩
  · exact State.Legal.resetEdge s
  · exact h.accessIfAny e.access
  · exact (h.accessIfAny e.access).issue w hw

theorem step (h : s.Legal) (ht : Machine.step s = .next t) : t.Legal := by
  rcases step_cases s t ht with ⟨-, rfl⟩ | ⟨e, rest, -, he⟩
  · exact h.takeEdge []
  · exact (h.takeEdge rest).transfer e he

end State.Legal

/-- The induction over runs, once: reset leaves a legal state, what the host presents is no part of it, and every
step keeps it legal. -/
theorem Reachable.legal {s : State} (h : Reachable s) : s.Legal := by
  induction h with
  | reset => exact State.Legal.reset
  | present s es _ ih => exact ih.withHostSide _ _
  | step s t _ hst ih => exact ih.step hst

/-! ### What a word reads of `CARRY` and writes to it -/

/-- An effect that does not read `CARRY` is issued with the same result but for `CARRY`. -/
theorem State.issueEffect_setCarry (s t : State) (f : State → State) (c : Bool)
    (hf : ∃ d, f (s.setCarry c) = (f s).setCarry d) (h : s.issueEffect f = .next t) :
    ∃ d, (s.setCarry c).issueEffect f = .next (t.setCarry d) := by
  rcases State.issueEffect_cases s t f h with ⟨hs, rfl⟩ | ⟨hs, rfl⟩
  · exact ⟨c, State.issueEffect_faulted _ f hs⟩
  · obtain ⟨d, hd⟩ := hf
    exact ⟨d, by rw [State.issueEffect_running (s.setCarry c) f hs, hd]⟩

/-- No word's issue reads `CARRY` (10_state.md R28). -/
theorem issue_setCarry (w : Word) (s t : State) (c : Bool) (h : issue w s = .next t) :
    ∃ d, issue w (s.setCarry c) = .next (t.setCarry d) := by
  rcases issue_cases w s t h with ⟨i, hd, hi⟩ | ⟨why, hd, hi⟩
  · obtain ⟨f, hf, hcarry⟩ := exec_eq_issueEffect i
    rw [hf] at hi
    rw [issue_command w i _ hd, hf]
    exact State.issueEffect_setCarry s t f c (hcarry s c) hi
  · rw [issue_illegal w why _ hd]
    exact State.issueEffect_setCarry s t _ c ⟨c, State.raiseFault_setCarry s c _⟩ hi

/-- The bit shifted out of a buffer: bit 7 of its first byte, and 0 for an empty buffer (40_field_arithmetic.md R91). -/
theorem shl1_buffer_carry (s : State) (k : Reg) :
    (shl1 (s.buffer k)).2 = (decide (0 < s.count k) && (s.cell k 0).getLsbD 7) := by
  rw [shl1_carry]
  by_cases hc : 0 < s.count k
  · rw [State.buffer, State.getD_slice s k _ 0 0 hc]
    simp [hc]
  · have hnil : s.buffer k = [] := List.eq_nil_of_length_eq_zero (by rw [State.length_buffer]; omega)
    simp [hnil, hc]

/-- A completed `SHLC` sets `CARRY` to the bit shifted out. -/
theorem execShlc_carry (rd ra : Reg) (s t : State) (hf : s.fault = false) (hl : s.len rd = s.len ra)
    (h : exec (.shlc rd ra) s = .next t) :
    t.carry = (decide (0 < s.count ra) && (s.cell ra 0).getLsbD 7) := by
  rcases execShlc_cases rd ra s t h with ⟨hf', -⟩ | ⟨-, -, rfl⟩ | ⟨-, hl', -⟩
  · rw [hf] at hf'; cases hf'
  · rw [State.setCarry_carry, shl1_buffer_carry]
  · exact absurd hl hl'

/-- Every command but a completed `SHLC` keeps `CARRY`: a discarded or faulting `SHLC` does too. -/
theorem exec_keeps_carry (i : Instr) (s t : State) (h : exec i s = .next t)
    (hi : ∀ rd ra, i = .shlc rd ra → s.fault = false → s.len rd ≠ s.len ra) : t.carry = s.carry := by
  cases i with
  | shlc rd ra =>
    rcases execShlc_cases rd ra s t h with ⟨-, rfl⟩ | ⟨hf, hl, -⟩ | ⟨-, -, rfl⟩
    · rfl
    · exact absurd hl (hi rd ra rfl hf)
    · rfl
  | double rd ra => rcases execDouble_cases rd ra s t h with ⟨-, rfl⟩ | ⟨-, -, rfl⟩ | ⟨-, -, rfl⟩ <;> simp
  | xorinto rd ra => rcases execXorinto_cases rd ra s t h with ⟨-, rfl⟩ | ⟨-, -, rfl⟩ | ⟨-, -, rfl⟩ <;> simp
  | xorto rd ra rb => rcases execXorto_cases rd ra rb s t h with ⟨-, rfl⟩ | ⟨-, -, rfl⟩ | ⟨-, -, rfl⟩ <;> simp
  | xorr rd ra rb => rcases execXorr_cases rd ra rb s t h with ⟨-, rfl⟩ | ⟨-, -, rfl⟩ | ⟨-, -, rfl⟩ <;> simp
  | setlen rd imm8 => rcases execSetlen_cases rd imm8 s t h with ⟨-, rfl⟩ | ⟨-, rfl⟩ <;> simp

/-- An illegal word keeps `CARRY`. -/
theorem execIllegal_keeps_carry (s t : State) (h : execIllegal s = .next t) : t.carry = s.carry := by
  rcases execIllegal_cases s t h with ⟨-, rfl⟩ | ⟨-, rfl⟩ <;> rfl

/-! ### `STATUS`, and the host port at its address -/

theorem bitByte_getElem (c : Bool) (j : Nat) (h : j < 8) : (bitByte c)[j] = (c && decide (j = 0)) := by
  cases c <;> simp [bitByte]

theorem State.status_getLsbD_zero (s : State) : s.status.getLsbD 0 = s.fault := by
  simp [State.status, bitByte_getElem]

theorem State.status_getLsbD_one (s : State) : s.status.getLsbD 1 = s.carry := by
  simp [State.status, bitByte_getElem]

/-- `STATUS` as a number: the sum of its three fields at their places (10_state.md R30). -/
theorem State.status_toNat (s : State) :
    s.status.toNat = s.cause.code.toNat * 4 + s.carry.toNat * 2 + s.fault.toNat := by
  unfold State.status
  cases s.cause <;> cases s.carry <;> cases s.fault <;> rfl

/-- The part of `STATUS` above its two flags: `CAUSE` in bits 3:2 and zeros from there on. -/
theorem State.status_cause_and_zeros (s : State) :
    s.status.toNat / 4 % 4 = s.cause.code.toNat ∧ s.status.toNat / 16 = 0 := by
  have hcode := s.cause.code.isLt
  have hcarry := s.carry.toNat_le
  have hfault := s.fault.toNat_le
  rw [State.status_toNat]
  omega

@[simp] theorem State.hostRead_status (s : State) : s.hostRead 0x200 = s.status := rfl

@[simp] theorem State.hostWrite_status (s : State) (v : Byte) : s.hostWrite 0x200 v = s := rfl

theorem State.architectural_takeEdge (s : State) (es : List Edge) :
    (s.takeEdge es).architectural = s.architectural := rfl

/-- A host read changes no architectural state, at any address (20_memory.md R46). -/
theorem State.architectural_access_read (s : State) (a : HostAddr) :
    (s.access (.read a)).architectural = s.architectural := rfl

end Sys2Proof.Machine

/-! SUPPORT. The statements about the state (10_state.md), settled. -/

namespace Sys2Proof.Proofs

open Sys2Proof.Machine Sys2Proof.Statements

theorem code_toNat_eq_causeNumber (c : Cause) : c.code.toNat = causeNumber c := by
  cases c <;> rfl

/-- An edge with one access and nothing else performs that access and no more. -/
theorem step_accessEdge (s : State) (a : Access) (rest : List Edge) (h : nextInput s (accessEdge a) rest) :
    step s = .next ((s.takeEdge rest).access a) := by
  rw [step_cons s _ rest h, transfer_no_command _ _ rfl rfl]
  rfl

/-- Settles O40: every reachable state is legal, by induction over the run; and of all edges only one with reset can clear
`FAULT`. -/
theorem reachableStatesKeepTheInvariants : Obligations.ReachableStatesKeepTheInvariants := by
  refine ⟨fun s hs => ⟨hs.legal.lens, hs.legal.cause⟩, fun s t _ hst hf ht => ?_⟩
  rcases step_cases s t hst with ⟨-, rfl⟩ | ⟨e, rest, hin, he⟩
  · rw [State.takeEdge_fault, hf] at ht; cases ht
  · refine ⟨e, rest, hin, ?_⟩
    by_contra hr
    have hkept : t.fault = true := transfer_keeps_fault e (s.takeEdge rest) t (by simpa using hr) hf he
    rw [hkept] at ht; cases ht

/-- Settles O33: what a word writes to `CARRY` follows from what each command can do, and that none reads it from the fact
that a change of `CARRY` passes through every operation a command is made of. -/
theorem carryIsWrittenOnlyByShlc : Obligations.CarryIsWrittenOnlyByShlc := by
  refine ⟨fun w s t h => ⟨fun rd ra hd hf hl => ?_, fun hn => ?_⟩, issue_setCarry, State.status_getLsbD_one⟩
  · rw [issue_command w _ s hd] at h
    exact execShlc_carry rd ra s t hf hl h
  · rcases issue_cases w s t h with ⟨i, hd, hi⟩ | ⟨why, -, hi⟩
    · refine exec_keeps_carry i s t hi fun rd ra heq hf hl => hn ⟨rd, ra, ?_, hf, hl⟩
      rw [hd, heq]
    · exact execIllegal_keeps_carry s t hi

/-- Settles O34: the two flag bits one by one, `CAUSE` and the zeros above it from the number `STATUS` stands for. -/
theorem statusShowsFaultCarryAndCause : Obligations.StatusShowsFaultCarryAndCause := by
  refine ⟨fun s => ?_, rfl, fun s rest h => ⟨_, step_accessEdge s _ rest h, ?_⟩⟩
  · obtain ⟨hcause, hzero⟩ := s.status_cause_and_zeros
    rw [State.hostRead_status, ← code_toNat_eq_causeNumber]
    exact ⟨s.status_getLsbD_zero, s.status_getLsbD_one, hcause, hzero, s.hostWrite_status⟩
  · rw [State.architectural_access_read, State.architectural_takeEdge]

end Sys2Proof.Proofs

/-! SUPPORT. The host port address by address, and the model's own two fields through a command, used by the statements about
the memory (20_memory.md). -/

namespace Sys2Proof.Machine

/-! ### The address map (20_memory.md R43) -/

/-- Bit 9 of a host address parts the registers and reserved addresses from the cells. -/
theorem addr_getLsbD_nine (a : HostAddr) : a.getLsbD 9 = decide (0x200 ≤ a.toNat) :=
  BitVec.msb_eq_decide a

theorem addr_getLsbD_nine_of_lt (a : HostAddr) (h : a.toNat < 0x200) : a.getLsbD 9 = false := by
  rw [addr_getLsbD_nine]
  simpa using h

/-- Below 0x200 an address is the address of the cell it names. -/
theorem cellAddr_addrReg_addrIndex (a : HostAddr) (h : a.toNat < 0x200) : cellAddr (addrReg a) (addrIndex a) = a.toNat := by
  simp only [cellAddr, addrReg, addrIndex, Reg.bits_ofBits, Config.capacity, BitVec.extractLsb'_toNat, Nat.shiftRight_eq_div_pow]
  omega

theorem toNat_ofNat_cellAddr (k : Reg) (i : Nat) (h : i < Config.capacity) :
    (BitVec.ofNat 10 (cellAddr k i)).toNat = cellAddr k i := by
  have hlt := cellAddr_lt k i h
  rw [BitVec.toNat_ofNat, Nat.mod_eq_of_lt]
  simp only [Config.cellCount, Config.bufferCount, Config.capacity] at hlt
  omega

theorem State.hostRead_of_lt (s : State) (a : HostAddr) (h : a.toNat < 0x200) :
    s.hostRead a = Memory.read s.mem a.toNat := by
  rw [State.hostRead, if_pos (addr_getLsbD_nine_of_lt a h), State.cell, if_pos (addrIndex_lt a), cellAddr_addrReg_addrIndex a h]

theorem State.hostWrite_of_lt (s : State) (a : HostAddr) (v : Byte) (h : a.toNat < 0x200) :
    s.hostWrite a v = { s with mem := Memory.write s.mem a.toNat v } := by
  rw [State.hostWrite, if_pos (addr_getLsbD_nine_of_lt a h), State.setCell, if_pos (addrIndex_lt a), cellAddr_addrReg_addrIndex a h]

/-- From 0x200 on a host write is ignored (20_memory.md R47). -/
theorem State.hostWrite_of_ge (s : State) (a : HostAddr) (v : Byte) (h : 0x200 ≤ a.toNat) : s.hostWrite a v = s := by
  simp [State.hostWrite, addr_getLsbD_nine, h]

/-- Through the host port cell `B[k][i]` stands at `128*k + i`. -/
theorem State.hostRead_cellAddr (s : State) (k : Reg) (i : Nat) (h : i < Config.capacity) :
    s.hostRead (BitVec.ofNat 10 (cellAddr k i)) = s.cell k i := by
  have haddr := toNat_ofNat_cellAddr k i h
  have hlt : cellAddr k i < 0x200 := cellAddr_lt k i h
  rw [State.hostRead_of_lt s _ (haddr.trans_lt hlt), haddr, State.cell, if_pos h]

theorem State.hostRead_len (s : State) (k : Reg) : s.hostRead (BitVec.ofNat 10 (0x204 + k.bits.toNat)) = s.len k := by
  cases k <;> rfl

/-- What a read from 0x200 on answers: `STATUS`, a length, or 0x00. -/
theorem State.hostRead_of_ge (s : State) (a : HostAddr) (h : 0x200 ≤ a.toNat) :
    s.hostRead a = if a = 0x200 then s.status else if a = 0x204 then s.len .b0 else if a = 0x205 then s.len .b1
      else if a = 0x206 then s.len .b2 else if a = 0x207 then s.len .b3 else 0x00 := by
  simp [State.hostRead, addr_getLsbD_nine, h]

/-- Every reserved address reads 0x00 (20_memory.md R43). -/
theorem State.hostRead_reserved (s : State) (a : HostAddr) (h : 0x200 ≤ a.toNat) (hstatus : a.toNat ≠ 0x200)
    (hlen : a.toNat < 0x204 ∨ 0x207 < a.toNat) : s.hostRead a = 0x00 := by
  have hne (b : HostAddr) (hb : a.toNat ≠ b.toNat) : a ≠ b := ne_of_apply_ne BitVec.toNat hb
  have h4 : a ≠ 0x204 := hne 0x204 (by simp; omega)
  have h5 : a ≠ 0x205 := hne 0x205 (by simp; omega)
  have h6 : a ≠ 0x206 := hne 0x206 (by simp; omega)
  have h7 : a ≠ 0x207 := hne 0x207 (by simp; omega)
  rw [State.hostRead_of_ge s a h, if_neg (hne 0x200 hstatus), if_neg h4, if_neg h5, if_neg h6, if_neg h7]

/-- From 0x200 on a read looks at no cell. -/
theorem State.hostRead_hostWrite_of_ge (s : State) (a b : HostAddr) (v : Byte) (hb : 0x200 ≤ b.toNat) :
    (s.hostWrite a v).hostRead b = s.hostRead b := by
  rcases State.hostWrite_cases s a v with ⟨-, h⟩ | ⟨-, h⟩
  · simp [h, State.hostRead_of_ge _ b hb, State.status]
  · rw [h]

/-- Reading back after a host write: a cell's address reads as written, every other address as before. -/
theorem State.hostRead_hostWrite (s : State) (a b : HostAddr) (v : Byte) (hs : Memory.wf s.mem) :
    (s.hostWrite a v).hostRead b = if b = a ∧ a.toNat < 0x200 then v else s.hostRead b := by
  rcases Nat.lt_or_ge a.toNat 0x200 with ha | ha
  · rcases Nat.lt_or_ge b.toNat 0x200 with hb | hb
    · rw [State.hostRead_of_lt _ b hb, State.hostRead_of_lt s b hb, State.hostWrite_of_lt s a v ha,
        Memory.read_write s.mem _ _ v hs.1]
      simp only [BitVec.toNat_inj, eq_comm, ha, and_true]
    · have hne : ¬ (b = a ∧ a.toNat < 0x200) := by rintro ⟨rfl, hlt⟩; omega
      rw [if_neg hne, State.hostRead_hostWrite_of_ge s a b v hb]
  · rw [State.hostWrite_of_ge s a v ha, if_neg fun hlt => Nat.not_lt.2 ha hlt.2]

/-! ### The model's own two fields pass through every operation -/

/-- The state with other edges to come and another byte shown on `h_rdata`; nothing architectural differs. -/
def State.withHostSide (s : State) (es : List Edge) (r : Option Byte) : State := { s with inputs := es, readData := r }

theorem State.takeEdge_eq_withHostSide (s : State) (es : List Edge) : s.takeEdge es = s.withHostSide es none := rfl

theorem State.withHostSide_self (s : State) : s.withHostSide s.inputs s.readData = s := rfl

@[simp] theorem State.len_withHostSide (s : State) (es : List Edge) (r : Option Byte) (k : Reg) :
    (s.withHostSide es r).len k = s.len k := by
  cases k <;> rfl

@[simp] theorem State.count_withHostSide (s : State) (es : List Edge) (r : Option Byte) (k : Reg) :
    (s.withHostSide es r).count k = s.count k := by
  simp [State.count]

@[simp] theorem State.slice_withHostSide (s : State) (es : List Edge) (r : Option Byte) (k : Reg) (n : Nat) :
    (s.withHostSide es r).slice k n = s.slice k n := rfl

@[simp] theorem State.buffer_withHostSide (s : State) (es : List Edge) (r : Option Byte) (k : Reg) :
    (s.withHostSide es r).buffer k = s.buffer k := by
  simp [State.buffer]

@[simp] theorem State.setCarry_withHostSide (s : State) (es : List Edge) (r : Option Byte) (c : Bool) :
    (s.withHostSide es r).setCarry c = (s.setCarry c).withHostSide es r := rfl

@[simp] theorem State.raiseFault_withHostSide (s : State) (es : List Edge) (r : Option Byte) (why : Cause) :
    (s.withHostSide es r).raiseFault why = (s.raiseFault why).withHostSide es r := rfl

@[simp] theorem State.setLen_withHostSide (s : State) (es : List Edge) (r : Option Byte) (k : Reg) (n : Byte) :
    (s.withHostSide es r).setLen k n = (s.setLen k n).withHostSide es r := by
  cases k <;> rfl

@[simp] theorem State.setCell_withHostSide (s : State) (es : List Edge) (r : Option Byte) (k : Reg) (i : Nat) (v : Byte) :
    (s.withHostSide es r).setCell k i v = (s.setCell k i v).withHostSide es r := by
  unfold State.setCell
  split <;> rfl

@[simp] theorem State.setCells_withHostSide (s : State) (es : List Edge) (r : Option Byte) (k : Reg) (i : Nat)
    (bs : List Byte) : (s.withHostSide es r).setCells k i bs = (s.setCells k i bs).withHostSide es r := by
  induction bs generalizing s i with
  | nil => rfl
  | cons b bs ih => simp [State.setCells, ih]

@[simp] theorem State.hostWrite_withHostSide (s : State) (es : List Edge) (r : Option Byte) (a : HostAddr) (v : Byte) :
    (s.withHostSide es r).hostWrite a v = (s.hostWrite a v).withHostSide es r := by
  unfold State.hostWrite
  split
  · exact State.setCell_withHostSide s es r _ _ v
  · rfl

/-- An access does not read the edges to come: only the list itself differs after it. -/
theorem State.access_takeEdge (s : State) (a : Access) (es fs : List Edge) :
    (s.takeEdge es).access a = { (s.takeEdge fs).access a with inputs := es } := by
  cases a with
  | read a => rfl
  | write a v => simp only [State.access, State.takeEdge_eq_withHostSide, State.hostWrite_withHostSide]; rfl

/-- The issue of every word, legal or not, is an effect on the state, and none reads or writes what the host has yet to
present or the byte a read shows (10_state.md R34). -/
theorem issue_eq_issueEffect (w : Word) :
    ∃ f : State → State, (∀ s, issue w s = s.issueEffect f) ∧
      ∀ s es r, f (s.withHostSide es r) = (f s).withHostSide es r := by
  cases hd : decode w with
  | illegal why => exact ⟨_, fun s => issue_illegal w why s hd, fun s es r => rfl⟩
  | command i =>
    cases i with
    | shlc rd ra =>
      refine ⟨_, fun s => issue_command w _ s hd, fun s es r => ?_⟩
      by_cases hl : s.len rd = s.len ra <;> simp [hl]
    | double rd ra =>
      refine ⟨_, fun s => issue_command w _ s hd, fun s es r => ?_⟩
      by_cases hl : s.count ra ∈ fieldSizes <;> simp [hl]
    | xorinto rd ra =>
      refine ⟨_, fun s => issue_command w _ s hd, fun s es r => ?_⟩
      by_cases hl : s.count rd < s.count ra <;> simp [hl]
    | xorto rd ra rb =>
      refine ⟨_, fun s => issue_command w _ s hd, fun s es r => ?_⟩
      by_cases hl : s.count rd < s.count rb ∨ s.count ra < s.count rb <;> simp [hl]
    | xorr rd ra rb =>
      refine ⟨_, fun s => issue_command w _ s hd, fun s es r => ?_⟩
      by_cases hl : s.count ra < s.count rb <;> simp [hl]
    | setlen rd imm8 =>
      exact ⟨_, fun s => issue_command w _ s hd, fun s es r => State.setLen_withHostSide s es r rd imm8⟩

/-- Every word has an outcome in every state, and it is a next state. -/
theorem exists_issue_eq_next (w : Word) (s : State) : ∃ t, issue w s = .next t := by
  obtain ⟨f, hf, -⟩ := issue_eq_issueEffect w
  rw [hf]
  cases hs : s.fault with
  | true => exact ⟨_, State.issueEffect_faulted s f hs⟩
  | false => exact ⟨_, State.issueEffect_running s f hs⟩

theorem issue_withHostSide (w : Word) (s t : State) (es : List Edge) (r : Option Byte) (h : issue w s = .next t) :
    issue w (s.withHostSide es r) = .next (t.withHostSide es r) := by
  obtain ⟨f, hf, hside⟩ := issue_eq_issueEffect w
  rw [hf] at h ⊢
  rcases State.issueEffect_cases s t f h with ⟨hs, rfl⟩ | ⟨hs, rfl⟩
  · exact State.issueEffect_faulted _ f hs
  · rw [State.issueEffect_running (s.withHostSide es r) f hs, hside]

/-- No word's issue writes the model's own two fields: put back as they were, they are what they are. -/
theorem issue_keeps_hostSide (w : Word) (s t : State) (h : issue w s = .next t) : HostSideKept s t := by
  have hput := issue_withHostSide w s t s.inputs s.readData h
  rw [State.withHostSide_self, h] at hput
  have ht : t = t.withHostSide s.inputs s.readData := by injection hput
  rw [ht]
  exact ⟨rfl, rfl⟩

end Sys2Proof.Machine

/-! SUPPORT. The statements about the memory (20_memory.md), settled. -/

namespace Sys2Proof.Proofs

open Sys2Proof.Machine Sys2Proof.Statements

/-- An edge that presents a word issues it in the state its host access, if it has one, leaves. -/
theorem step_of_command (s : State) (e : Edge) (rest : List Edge) (w : Word) (h : nextInput s e rest) (hr : e.rst = false)
    (hw : e.command = some w) : step s = issue w ((s.takeEdge rest).accessIfAny e.access) := by
  rw [step_cons s e rest h, transfer_command e _ w hr hw]

/-- Settles O8: both runs issue the word in the state the access leaves, but for the edges to come and the byte shown, and
no word's issue reads or writes those. -/
theorem accessIsOrderedBeforeCommand : Obligations.AccessIsOrderedBeforeCommand := by
  intro s a w rest hin
  obtain ⟨x, hx⟩ : ∃ x, (s.takeEdge rest).access a = x := ⟨_, rfl⟩
  obtain ⟨t, ht⟩ := exists_issue_eq_next w x
  obtain ⟨hinputs, hread⟩ := issue_keeps_hostSide w x t ht
  have hboth : step s = .next t := by
    rw [step_of_command s _ rest w hin rfl rfl, ← ht, ← hx]
    rfl
  have haccess : step { s with inputs := accessEdge a :: commandEdge w :: rest } =
      .next { x with inputs := commandEdge w :: rest } := by
    rw [step_accessEdge _ a (commandEdge w :: rest), ← hx]
    · exact congrArg _ (State.access_takeEdge s a _ rest)
    · rfl
  have hcommand : step { x with inputs := commandEdge w :: rest } = .next (t.takeEdge rest) := by
    rw [step_of_command _ (commandEdge w) rest w ?_ rfl rfl]
    · exact issue_withHostSide w x t rest none ht
    · rfl
  have hrest : t.inputs = rest := by
    rw [hinputs, ← hx]
    exact State.accessIfAny_inputs (s.takeEdge rest) (some a)
  refine ⟨t, _, _, hboth, haccess, hcommand, ?_, hread, ?_⟩
  · rw [State.takeEdge, ← hrest]
  · rintro addr rfl
    rw [hread, ← hx]
    rfl

/-- Settles O35: the address map part by part; an edge with a read alone changes only what `h_rdata` shows. -/
theorem hostReadFollowsTheAddressMap : Obligations.HostReadFollowsTheAddressMap := by
  intro s
  refine ⟨s.hostRead_cellAddr, ?_, s.hostRead_len, s.hostRead_reserved, fun a rest h => step_accessEdge s _ rest h⟩
  rw [State.hostRead_status, State.status_toNat, code_toNat_eq_causeNumber]

/-- Settles O36: a step at an edge with a write alone is that write, which reads back by the address map; the other fields
are what no access changes. -/
theorem hostWriteChangesOneCell : Obligations.HostWriteChangesOneCell := by
  intro s a v rest hs hin
  refine ⟨_, step_accessEdge s _ rest hin, fun b => ?_, fun ha => ?_, fun k => ?_, ?_, ?_, ?_⟩
  · exact (s.takeEdge rest).hostRead_hostWrite a b v hs.cells
  · rw [State.access, State.hostWrite_of_ge _ a v ha, State.architectural_takeEdge]
  · exact ((s.takeEdge rest).len_accessIfAny (some (.write a v)) k).trans (s.len_takeEdge rest k)
  · exact (s.takeEdge rest).accessIfAny_carry (some (.write a v))
  · exact (s.takeEdge rest).accessIfAny_fault (some (.write a v))
  · exact (s.takeEdge rest).accessIfAny_cause (some (.write a v))

end Sys2Proof.Proofs

/-! SUPPORT. The decoder and the encoder format by format, in numbers, used by the statements about the encoding
(30_encoding.md). -/

namespace Sys2Proof.Machine

/-! ### The fields of a word as numbers (30_encoding.md R71) -/

section Fields

variable (w : Word)

theorem toNat_opField : (opField w).toNat = w.toNat / 4096 := by
  simp only [opField, BitVec.extractLsb'_toNat, Nat.shiftRight_eq_div_pow]; omega

theorem toNat_rdField : (rdField w).bits.toNat = w.toNat / 1024 % 4 := by
  simp [rdField, BitVec.extractLsb'_toNat, Nat.shiftRight_eq_div_pow]

theorem toNat_raField : (raField w).bits.toNat = w.toNat / 256 % 4 := by
  simp [raField, BitVec.extractLsb'_toNat, Nat.shiftRight_eq_div_pow]

theorem toNat_rbField : (rbField w).bits.toNat = w.toNat / 64 % 4 := by
  simp [rbField, BitVec.extractLsb'_toNat, Nat.shiftRight_eq_div_pow]

theorem toNat_immField : (immField w).toNat = w.toNat % 256 := by
  simp [immField, BitVec.extractLsb'_toNat]

/-- The reserved bits of format `RR`. -/
theorem low8_eq_zero_iff : w.extractLsb' 0 8 = 0 ↔ w.toNat % 256 = 0 := by
  rw [← BitVec.toNat_inj, BitVec.extractLsb'_toNat]; rfl

/-- The reserved bits of format `RRR`. -/
theorem low6_eq_zero_iff : w.extractLsb' 0 6 = 0 ↔ w.toNat % 64 = 0 := by
  rw [← BitVec.toNat_inj, BitVec.extractLsb'_toNat]; rfl

/-- The reserved bits of format `RI`. -/
theorem bits9to8_eq_zero_iff : w.extractLsb' 8 2 = 0 ↔ w.toNat / 256 % 4 = 0 := by
  rw [← BitVec.toNat_inj, BitVec.extractLsb'_toNat, Nat.shiftRight_eq_div_pow]; rfl

end Fields

/-! ### An encoded word as a number -/

section EncodedWords

variable (op : BitVec 4) (rd ra rb : Reg) (imm8 : Byte)

/-- The left part of a concatenation is the upper one. -/
theorem toNat_append_eq_add {m n : Nat} (x : BitVec m) (y : BitVec n) : (x ++ y).toNat = x.toNat * 2 ^ n + y.toNat := by
  rw [BitVec.toNat_append, ← Nat.shiftLeft_add_eq_or_of_lt y.isLt, Nat.shiftLeft_eq]

theorem toNat_encodeRR :
    (encodeRR op rd ra).toNat = op.toNat * 4096 + rd.bits.toNat * 1024 + ra.bits.toNat * 256 := by
  unfold encodeRR
  rw [toNat_append_eq_add, toNat_append_eq_add, toNat_append_eq_add]
  simp only [BitVec.ofNat_eq_ofNat, BitVec.toNat_zero]
  omega

theorem toNat_encodeRRR : (encodeRRR op rd ra rb).toNat =
    op.toNat * 4096 + rd.bits.toNat * 1024 + ra.bits.toNat * 256 + rb.bits.toNat * 64 := by
  unfold encodeRRR
  rw [toNat_append_eq_add, toNat_append_eq_add, toNat_append_eq_add, toNat_append_eq_add]
  simp only [BitVec.ofNat_eq_ofNat, BitVec.toNat_zero]
  omega

theorem toNat_encodeRI :
    (encodeRI op rd imm8).toNat = op.toNat * 4096 + rd.bits.toNat * 1024 + imm8.toNat := by
  unfold encodeRI
  rw [toNat_append_eq_add, toNat_append_eq_add, toNat_append_eq_add]
  simp only [BitVec.ofNat_eq_ofNat, BitVec.toNat_zero]
  omega

end EncodedWords

/-! ### What each format decodes to -/

section Formats

variable (w : Word) (f : Reg → Reg → Instr) (g : Reg → Reg → Reg → Instr) (k : Reg → Byte → Instr)

theorem decodeRR_of_low8 (h : w.toNat % 256 = 0) : decodeRR w f = .command (f (rdField w) (raField w)) :=
  if_pos ((low8_eq_zero_iff w).2 h)

theorem decodeRR_of_reserved (h : w.toNat % 256 ≠ 0) : decodeRR w f = .illegal .reservedBits :=
  if_neg (mt (low8_eq_zero_iff w).1 h)

theorem decodeRRR_of_low6 (h : w.toNat % 64 = 0) :
    decodeRRR w g = .command (g (rdField w) (raField w) (rbField w)) :=
  if_pos ((low6_eq_zero_iff w).2 h)

theorem decodeRRR_of_reserved (h : w.toNat % 64 ≠ 0) : decodeRRR w g = .illegal .reservedBits :=
  if_neg (mt (low6_eq_zero_iff w).1 h)

theorem decodeRI_of_imm (h : w.toNat / 256 % 4 = 0) (himm : w.toNat % 256 ≤ 128) :
    decodeRI w k = .command (k (rdField w) (immField w)) := by
  rw [decodeRI, if_pos ((bits9to8_eq_zero_iff w).2 h), toNat_immField]
  exact if_pos himm

theorem decodeRI_of_imm_above (h : w.toNat / 256 % 4 = 0) (himm : 128 < w.toNat % 256) :
    decodeRI w k = .illegal .immediateAboveCapacity := by
  rw [decodeRI, if_pos ((bits9to8_eq_zero_iff w).2 h), toNat_immField]
  exact if_neg (Nat.not_le.2 himm)

theorem decodeRI_of_reserved (h : w.toNat / 256 % 4 ≠ 0) : decodeRI w k = .illegal .reservedBits :=
  if_neg (mt (bits9to8_eq_zero_iff w).1 h)

end Formats

/-! ### The decoder, opcode by opcode (30_encoding.md R75) -/

/-- All that the decoder can do with a word, by its opcode. -/
theorem decode_cases (w : Word) :
    (w.toNat / 4096 = 1 ∧ decode w = decodeRR w .shlc) ∨ (w.toNat / 4096 = 2 ∧ decode w = decodeRR w .double) ∨
      (w.toNat / 4096 = 3 ∧ decode w = decodeRR w .xorinto) ∨ (w.toNat / 4096 = 4 ∧ decode w = decodeRRR w .xorto) ∨
      (w.toNat / 4096 = 5 ∧ decode w = decodeRRR w .xorr) ∨ (w.toNat / 4096 = 6 ∧ decode w = decodeRI w .setlen) ∨
      ((w.toNat / 4096 = 0 ∨ 7 ≤ w.toNat / 4096) ∧ decode w = .illegal .reservedOpcode) := by
  unfold decode
  rw [toNat_opField]
  split <;> simp_all
  omega

section ByOpcode

variable {w : Word}

theorem decode_of_shlc_opcode (h : w.toNat / 4096 = 1) : decode w = decodeRR w .shlc := by
  simp [decode, toNat_opField, h]

theorem decode_of_double_opcode (h : w.toNat / 4096 = 2) : decode w = decodeRR w .double := by
  simp [decode, toNat_opField, h]

theorem decode_of_xorinto_opcode (h : w.toNat / 4096 = 3) : decode w = decodeRR w .xorinto := by
  simp [decode, toNat_opField, h]

theorem decode_of_xorto_opcode (h : w.toNat / 4096 = 4) : decode w = decodeRRR w .xorto := by
  simp [decode, toNat_opField, h]

theorem decode_of_xorr_opcode (h : w.toNat / 4096 = 5) : decode w = decodeRRR w .xorr := by
  simp [decode, toNat_opField, h]

theorem decode_of_setlen_opcode (h : w.toNat / 4096 = 6) : decode w = decodeRI w .setlen := by
  simp [decode, toNat_opField, h]

theorem decode_of_reserved_opcode (h : w.toNat / 4096 = 0 ∨ 7 ≤ w.toNat / 4096) :
    decode w = .illegal .reservedOpcode := by
  rcases decode_cases w with ⟨hop, -⟩ | ⟨hop, -⟩ | ⟨hop, -⟩ | ⟨hop, -⟩ | ⟨hop, -⟩ | ⟨hop, -⟩ | ⟨-, hd⟩
  pick_goal 7
  · exact hd
  all_goals omega

end ByOpcode

/-! ### From the encoder back to the decoder (30_encoding.md R75) -/

section RoundTrip

variable (op : BitVec 4) (rd ra rb : Reg) (imm8 : Byte) (f : Reg → Reg → Instr) (g : Reg → Reg → Reg → Instr)
  (k : Reg → Byte → Instr)

theorem encodeRR_opcode : (encodeRR op rd ra).toNat / 4096 = op.toNat := by
  have hrd := Reg.bits_lt rd
  have hra := Reg.bits_lt ra
  rw [toNat_encodeRR]
  omega

theorem encodeRRR_opcode : (encodeRRR op rd ra rb).toNat / 4096 = op.toNat := by
  have hrd := Reg.bits_lt rd
  have hra := Reg.bits_lt ra
  have hrb := Reg.bits_lt rb
  rw [toNat_encodeRRR]
  omega

theorem encodeRI_opcode : (encodeRI op rd imm8).toNat / 4096 = op.toNat := by
  have hrd := Reg.bits_lt rd
  have himm := imm8.isLt
  rw [toNat_encodeRI]
  omega

theorem decodeRR_encodeRR : decodeRR (encodeRR op rd ra) f = .command (f rd ra) := by
  have hw := toNat_encodeRR op rd ra
  have hrd := Reg.bits_lt rd
  have hra := Reg.bits_lt ra
  have hrdField : rdField (encodeRR op rd ra) = rd := Reg.bits_inj _ _ (by rw [toNat_rdField, hw]; omega)
  have hraField : raField (encodeRR op rd ra) = ra := Reg.bits_inj _ _ (by rw [toNat_raField, hw]; omega)
  rw [decodeRR_of_low8 _ f (by omega), hrdField, hraField]

theorem decodeRRR_encodeRRR : decodeRRR (encodeRRR op rd ra rb) g = .command (g rd ra rb) := by
  have hw := toNat_encodeRRR op rd ra rb
  have hrd := Reg.bits_lt rd
  have hra := Reg.bits_lt ra
  have hrb := Reg.bits_lt rb
  have hrdField : rdField (encodeRRR op rd ra rb) = rd := Reg.bits_inj _ _ (by rw [toNat_rdField, hw]; omega)
  have hraField : raField (encodeRRR op rd ra rb) = ra := Reg.bits_inj _ _ (by rw [toNat_raField, hw]; omega)
  have hrbField : rbField (encodeRRR op rd ra rb) = rb := Reg.bits_inj _ _ (by rw [toNat_rbField, hw]; omega)
  rw [decodeRRR_of_low6 _ g (by omega), hrdField, hraField, hrbField]

theorem decodeRI_encodeRI (h : imm8.toNat ≤ 128) : decodeRI (encodeRI op rd imm8) k = .command (k rd imm8) := by
  have hw := toNat_encodeRI op rd imm8
  have hrd := Reg.bits_lt rd
  have hrdField : rdField (encodeRI op rd imm8) = rd := Reg.bits_inj _ _ (by rw [toNat_rdField, hw]; omega)
  have himmField : immField (encodeRI op rd imm8) = imm8 :=
    BitVec.eq_of_toNat_eq (by rw [toNat_immField, hw]; omega)
  rw [decodeRI_of_imm _ k (by omega) (by omega), hrdField, himmField]

/-- The encoder's word of a well-formed command decodes to that command. -/
theorem decode_encode (i : Instr) (h : i.wf = true) : decode (encode i) = .command i := by
  cases i with
  | shlc rd ra => exact (decode_of_shlc_opcode (encodeRR_opcode 1 rd ra)).trans (decodeRR_encodeRR 1 rd ra _)
  | double rd ra => exact (decode_of_double_opcode (encodeRR_opcode 2 rd ra)).trans (decodeRR_encodeRR 2 rd ra _)
  | xorinto rd ra => exact (decode_of_xorinto_opcode (encodeRR_opcode 3 rd ra)).trans (decodeRR_encodeRR 3 rd ra _)
  | xorto rd ra rb => exact (decode_of_xorto_opcode (encodeRRR_opcode 4 rd ra rb)).trans (decodeRRR_encodeRRR 4 rd ra rb _)
  | xorr rd ra rb => exact (decode_of_xorr_opcode (encodeRRR_opcode 5 rd ra rb)).trans (decodeRRR_encodeRRR 5 rd ra rb _)
  | setlen rd imm8 =>
    exact (decode_of_setlen_opcode (encodeRI_opcode 6 rd imm8)).trans (decodeRI_encodeRI 6 rd imm8 _ (of_decide_eq_true h))

variable {w : Word} {i : Instr}

theorem encodeRR_of_decodeRR (hop : w.toNat / 4096 = op.toNat) (h : decodeRR w f = .command i) :
    ∃ rd ra, f rd ra = i ∧ encodeRR op rd ra = w := by
  by_cases hlow : w.toNat % 256 = 0
  · rw [decodeRR_of_low8 w f hlow] at h
    refine ⟨_, _, Decoded.command.inj h, BitVec.eq_of_toNat_eq ?_⟩
    rw [toNat_encodeRR, toNat_rdField, toNat_raField]
    omega
  · rw [decodeRR_of_reserved w f hlow] at h
    cases h

theorem encodeRRR_of_decodeRRR (hop : w.toNat / 4096 = op.toNat) (h : decodeRRR w g = .command i) :
    ∃ rd ra rb, g rd ra rb = i ∧ encodeRRR op rd ra rb = w := by
  by_cases hlow : w.toNat % 64 = 0
  · rw [decodeRRR_of_low6 w g hlow] at h
    refine ⟨_, _, _, Decoded.command.inj h, BitVec.eq_of_toNat_eq ?_⟩
    rw [toNat_encodeRRR, toNat_rdField, toNat_raField, toNat_rbField]
    omega
  · rw [decodeRRR_of_reserved w g hlow] at h
    cases h

theorem encodeRI_of_decodeRI (hop : w.toNat / 4096 = op.toNat) (h : decodeRI w k = .command i) :
    ∃ rd imm8, k rd imm8 = i ∧ encodeRI op rd imm8 = w := by
  by_cases hmid : w.toNat / 256 % 4 = 0
  · by_cases himm : w.toNat % 256 ≤ 128
    · rw [decodeRI_of_imm w k hmid himm] at h
      refine ⟨_, _, Decoded.command.inj h, BitVec.eq_of_toNat_eq ?_⟩
      rw [toNat_encodeRI, toNat_rdField, toNat_immField]
      omega
    · rw [decodeRI_of_imm_above w k hmid (Nat.not_le.1 himm)] at h
      cases h
  · rw [decodeRI_of_reserved w k hmid] at h
    cases h

/-- A word that decodes to a command is that command's one word. -/
theorem encode_of_decode (h : decode w = .command i) : encode i = w := by
  rcases decode_cases w with ⟨hop, hd⟩ | ⟨hop, hd⟩ | ⟨hop, hd⟩ | ⟨hop, hd⟩ | ⟨hop, hd⟩ | ⟨hop, hd⟩ | ⟨-, hd⟩ <;>
    rw [hd] at h
  · obtain ⟨rd, ra, rfl, hw⟩ := encodeRR_of_decodeRR 1 _ hop h
    exact hw
  · obtain ⟨rd, ra, rfl, hw⟩ := encodeRR_of_decodeRR 2 _ hop h
    exact hw
  · obtain ⟨rd, ra, rfl, hw⟩ := encodeRR_of_decodeRR 3 _ hop h
    exact hw
  · obtain ⟨rd, ra, rb, rfl, hw⟩ := encodeRRR_of_decodeRRR 4 _ hop h
    exact hw
  · obtain ⟨rd, ra, rb, rfl, hw⟩ := encodeRRR_of_decodeRRR 5 _ hop h
    exact hw
  · obtain ⟨rd, imm8, rfl, hw⟩ := encodeRI_of_decodeRI 6 _ hop h
    exact hw
  · cases h

end RoundTrip

/-! ### The illegal words of each format (30_encoding.md R76) -/

section IllegalWords

variable (w : Word) (f : Reg → Reg → Instr) (g : Reg → Reg → Reg → Instr) (k : Reg → Byte → Instr)

theorem decodeRR_illegal_iff : (∃ why, decodeRR w f = .illegal why) ↔ w.toNat % 256 ≠ 0 := by
  by_cases h : w.toNat % 256 = 0
  · simp [decodeRR_of_low8 w f h, h]
  · simp [decodeRR_of_reserved w f h, h]

theorem decodeRRR_illegal_iff : (∃ why, decodeRRR w g = .illegal why) ↔ w.toNat % 64 ≠ 0 := by
  by_cases h : w.toNat % 64 = 0
  · simp [decodeRRR_of_low6 w g h, h]
  · simp [decodeRRR_of_reserved w g h, h]

theorem decodeRI_illegal_iff :
    (∃ why, decodeRI w k = .illegal why) ↔ w.toNat / 256 % 4 ≠ 0 ∨ 128 < w.toNat % 256 := by
  by_cases h : w.toNat / 256 % 4 = 0
  · rcases Nat.lt_or_ge 128 (w.toNat % 256) with himm | himm
    · simp [decodeRI_of_imm_above w k h himm, himm]
    · simp [decodeRI_of_imm w k h himm, h, himm]
  · simp [decodeRI_of_reserved w k h, h]

end IllegalWords

/-! ### Fixed bits under a mask (30_encoding.md R74) -/

/-- Where a mask is all ones, a word that matches under it has the bits of the value matched. -/
theorem field_eq_of_mask_match {w mask value : Word} (h : w &&& mask = value) (start len : Nat)
    (hmask : mask.extractLsb' start len = BitVec.allOnes len) :
    w.toNat / 2 ^ start % 2 ^ len = value.toNat / 2 ^ start % 2 ^ len := by
  have hfield : w.extractLsb' start len = value.extractLsb' start len := by
    rw [← h, BitVec.extractLsb'_and, hmask, BitVec.and_allOnes]
  simpa only [BitVec.extractLsb'_toNat, Nat.shiftRight_eq_div_pow] using congrArg BitVec.toNat hfield

/-- A row of format `RR`: opcode `op` and its other fixed bits 0. -/
theorem match_RR_iff (op : Nat) (value : Word) (hvalue : value.toNat = op * 4096) (f : Reg → Reg → Instr)
    (hdecode : ∀ w : Word, w.toNat / 4096 = op → decode w = decodeRR w f)
    (hrow : ∀ rd ra, encode (f rd ra) &&& 0xF0FF = value) (w : Word) :
    w &&& 0xF0FF = value ↔ ∃ rd ra, decode w = .command (f rd ra) := by
  constructor
  · intro h
    have hop := field_eq_of_mask_match h 12 4 (by decide)
    have hlow := field_eq_of_mask_match h 0 8 (by decide)
    have hw := w.isLt
    rw [hvalue] at hop hlow
    exact ⟨_, _, (hdecode w (by omega)).trans (decodeRR_of_low8 w f (by omega))⟩
  · rintro ⟨rd, ra, h⟩
    rw [← encode_of_decode h, hrow]

/-- A row of format `RRR`: opcode `op` and its other fixed bits 0. -/
theorem match_RRR_iff (op : Nat) (value : Word) (hvalue : value.toNat = op * 4096)
    (g : Reg → Reg → Reg → Instr)
    (hdecode : ∀ w : Word, w.toNat / 4096 = op → decode w = decodeRRR w g)
    (hrow : ∀ rd ra rb, encode (g rd ra rb) &&& 0xF03F = value) (w : Word) :
    w &&& 0xF03F = value ↔ ∃ rd ra rb, decode w = .command (g rd ra rb) := by
  constructor
  · intro h
    have hop := field_eq_of_mask_match h 12 4 (by decide)
    have hlow := field_eq_of_mask_match h 0 6 (by decide)
    have hw := w.isLt
    rw [hvalue] at hop hlow
    exact ⟨_, _, _, (hdecode w (by omega)).trans (decodeRRR_of_low6 w g (by omega))⟩
  · rintro ⟨rd, ra, rb, h⟩
    rw [← encode_of_decode h, hrow]

/-- The row of `SETLEN`, with its bound on the immediate (30_encoding.md R73). -/
theorem match_setlen_iff (w : Word) :
    (w &&& 0xF300 = 0x6000 ∧ w.toNat % 256 ≤ 128) ↔ ∃ rd imm8, decode w = .command (.setlen rd imm8) := by
  constructor
  · rintro ⟨h, himm⟩
    have hop : w.toNat / 2 ^ 12 % 2 ^ 4 = 6 := field_eq_of_mask_match h 12 4 (by decide)
    have hmid : w.toNat / 2 ^ 8 % 2 ^ 2 = 0 := field_eq_of_mask_match h 8 2 (by decide)
    have hw := w.isLt
    exact ⟨_, _, (decode_of_setlen_opcode (by omega)).trans (decodeRI_of_imm w _ hmid himm)⟩
  · rintro ⟨rd, imm8, h⟩
    have hwf : imm8.toNat ≤ 128 := of_decide_eq_true (decode_command_wf w _ h)
    have hw : w.toNat = 6 * 4096 + rd.bits.toNat * 1024 + imm8.toNat := by
      rw [← encode_of_decode h]
      exact toNat_encodeRI 6 rd imm8
    refine ⟨?_, by omega⟩
    rw [← encode_of_decode h]
    exact Laws.RowMatch.setlen rd imm8

end Sys2Proof.Machine

/-! SUPPORT. The statements about the encoding (30_encoding.md), settled. -/

namespace Sys2Proof.Proofs

open Sys2Proof.Machine Sys2Proof.Statements

/-! ### The row formulas make the encoder's words (30_encoding.md R74) -/

theorem encode_shlc_eq_rrWord (rd ra : Reg) : encode (.shlc rd ra) = rrWord 1 rd ra := by
  cases rd <;> cases ra <;> rfl

theorem encode_double_eq_rrWord (rd ra : Reg) : encode (.double rd ra) = rrWord 2 rd ra := by
  cases rd <;> cases ra <;> rfl

theorem encode_xorinto_eq_rrWord (rd ra : Reg) : encode (.xorinto rd ra) = rrWord 3 rd ra := by
  cases rd <;> cases ra <;> rfl

theorem encode_xorto_eq_rrrWord (rd ra rb : Reg) : encode (.xorto rd ra rb) = rrrWord 4 rd ra rb := by
  cases rd <;> cases ra <;> cases rb <;> rfl

theorem encode_xorr_eq_rrrWord (rd ra rb : Reg) : encode (.xorr rd ra rb) = rrrWord 5 rd ra rb := by
  cases rd <;> cases ra <;> cases rb <;> rfl

theorem encode_setlen_eq_riWord (rd : Reg) (imm8 : Byte) : encode (.setlen rd imm8) = riWord rd imm8 := by
  have himm : imm8.toNat < 2 ^ 10 := imm8.isLt.trans (by decide)
  have hor : (6 <<< 12) ||| (rd.bits.toNat <<< 10) ||| imm8.toNat = (6 <<< 2 + rd.bits.toNat) <<< 10 + imm8.toNat := by
    rw [Nat.shiftLeft_add_eq_or_of_lt himm, Nat.shiftLeft_add_eq_or_of_lt rd.bits.isLt, Nat.shiftLeft_or_distrib,
      ← Nat.shiftLeft_add]
  refine BitVec.eq_of_toNat_eq ((toNat_encodeRI 6 rd imm8).trans ?_)
  rw [riWord, hor, BitVec.toNat_ofNat, Nat.shiftLeft_eq]
  have hrd := Reg.bits_lt rd
  have hop : (6 : BitVec 4).toNat = 6 := rfl
  omega

/-- Settles O2: row by row the mask against the decoder, and the formula's word as the one word of the command decoded. -/
theorem decodeFollowsTheOpcodeMap : Obligations.DecodeFollowsTheOpcodeMap := by
  intro w
  refine ⟨match_RR_iff 1 _ rfl .shlc (fun _ => decode_of_shlc_opcode) Laws.RowMatch.shlc w, fun rd ra h => ?_,
    match_RR_iff 2 _ rfl .double (fun _ => decode_of_double_opcode) Laws.RowMatch.double w, fun rd ra h => ?_,
    match_RR_iff 3 _ rfl .xorinto (fun _ => decode_of_xorinto_opcode) Laws.RowMatch.xorinto w, fun rd ra h => ?_,
    match_RRR_iff 4 _ rfl .xorto (fun _ => decode_of_xorto_opcode) Laws.RowMatch.xorto w, fun rd ra rb h => ?_,
    match_RRR_iff 5 _ rfl .xorr (fun _ => decode_of_xorr_opcode) Laws.RowMatch.xorr w, fun rd ra rb h => ?_,
    match_setlen_iff w, fun rd imm8 h => ?_, fun hop => ?_⟩
  · rw [← encode_of_decode h, encode_shlc_eq_rrWord]
  · rw [← encode_of_decode h, encode_double_eq_rrWord]
  · rw [← encode_of_decode h, encode_xorinto_eq_rrWord]
  · rw [← encode_of_decode h, encode_xorto_eq_rrrWord]
  · rw [← encode_of_decode h, encode_xorr_eq_rrrWord]
  · rw [← encode_of_decode h, encode_setlen_eq_riWord]
  · exact ⟨_, decode_of_reserved_opcode hop⟩

/-- The list of R76, opcode by opcode. -/
theorem illegal_iff_listed (w : Word) : (∃ why, decode w = .illegal why) ↔
    (w.toNat / 4096 = 0 ∨ 7 ≤ w.toNat / 4096) ∨
    (w.toNat / 4096 ∈ [1, 2, 3] ∧ w.toNat % 256 ≠ 0) ∨
    (w.toNat / 4096 ∈ [4, 5] ∧ w.toNat % 64 ≠ 0) ∨
    (w.toNat / 4096 = 6 ∧ (w.toNat / 256 % 4 ≠ 0 ∨ 128 < w.toNat % 256)) := by
  rcases decode_cases w with ⟨hop, hd⟩ | ⟨hop, hd⟩ | ⟨hop, hd⟩ | ⟨hop, hd⟩ | ⟨hop, hd⟩ | ⟨hop, hd⟩ | ⟨hop, hd⟩
  · rw [hd, decodeRR_illegal_iff]; simp [hop]
  · rw [hd, decodeRR_illegal_iff]; simp [hop]
  · rw [hd, decodeRR_illegal_iff]; simp [hop]
  · rw [hd, decodeRRR_illegal_iff]; simp [hop]
  · rw [hd, decodeRRR_illegal_iff]; simp [hop]
  · rw [hd, decodeRI_illegal_iff]; simp [hop]
  · exact iff_of_true ⟨_, hd⟩ (.inl hop)

/-- Settles O3: the list from what each format refuses, and the fault from what the issue of an illegal word does. -/
theorem illegalWordsAreExactlyTheListed : Obligations.IllegalWordsAreExactlyTheListed := by
  refine ⟨illegal_iff_listed, ⟨.reservedOpcode, by decide⟩, ⟨.reservedOpcode, by decide⟩, fun w why s hd hf => ?_⟩
  rw [issue_illegal w why s hd]
  exact State.issueEffect_running s _ hf

end Sys2Proof.Proofs

/-! SUPPORT. The well-formed commands as a list, and words counted by the command they decode to. -/

namespace Sys2Proof.Machine

/-! ### Every well-formed command, once -/

def registers : List Reg := [.b0, .b1, .b2, .b3]

@[simp] theorem length_registers : registers.length = 4 := rfl

@[simp] theorem mem_registers (k : Reg) : k ∈ registers := by cases k <;> decide

theorem nodup_registers : registers.Nodup := by decide

/-- The lengths a `SETLEN` can name (30_encoding.md R73). -/
def lengths : List Byte := (List.range 129).map (BitVec.ofNat 8)

@[simp] theorem length_lengths : lengths.length = 129 := by simp [lengths]

@[simp] theorem mem_lengths (n : Byte) : n ∈ lengths ↔ n.toNat ≤ 128 := by
  simp only [lengths, List.mem_map, List.mem_range]
  constructor
  · rintro ⟨m, hm, rfl⟩
    rw [BitVec.toNat_ofNat]
    omega
  · exact fun h => ⟨n.toNat, by omega, BitVec.ofNat_toNat 8 n |>.trans (by simp)⟩

theorem nodup_lengths : lengths.Nodup := by
  refine List.Nodup.map_on (fun m hm n hn h => ?_) List.nodup_range
  rw [List.mem_range] at hm hn
  have htoNat := congrArg BitVec.toNat h
  rw [BitVec.toNat_ofNat, BitVec.toNat_ofNat] at htoNat
  omega

/-- The commands of a row of format `RR`. -/
def rowRR (f : Reg → Reg → Instr) : List Instr := (registers ×ˢ registers).map fun x => f x.1 x.2

/-- The commands of a row of format `RRR`. -/
def rowRRR (g : Reg → Reg → Reg → Instr) : List Instr :=
  (registers ×ˢ registers ×ˢ registers).map fun x => g x.1 x.2.1 x.2.2

/-- The commands of the row of format `RI`. -/
def rowRI (k : Reg → Byte → Instr) : List Instr := (registers ×ˢ lengths).map fun x => k x.1 x.2

section Rows

variable (f : Reg → Reg → Instr) (g : Reg → Reg → Reg → Instr) (k : Reg → Byte → Instr) (i : Instr) (p : Instr → Bool)

@[simp] theorem mem_rowRR : i ∈ rowRR f ↔ ∃ rd ra, f rd ra = i := by
  simp [rowRR]

@[simp] theorem mem_rowRRR : i ∈ rowRRR g ↔ ∃ rd ra rb, g rd ra rb = i := by
  simp [rowRRR]

@[simp] theorem mem_rowRI : i ∈ rowRI k ↔ ∃ rd imm8, imm8.toNat ≤ 128 ∧ k rd imm8 = i := by
  simp [rowRI]

@[simp] theorem countP_rowRR : (rowRR f).countP p = (registers ×ˢ registers).countP fun x => p (f x.1 x.2) :=
  List.countP_map

@[simp] theorem countP_rowRRR :
    (rowRRR g).countP p = (registers ×ˢ registers ×ˢ registers).countP fun x => p (g x.1 x.2.1 x.2.2) :=
  List.countP_map

@[simp] theorem countP_rowRI : (rowRI k).countP p = (registers ×ˢ lengths).countP fun x => p (k x.1 x.2) :=
  List.countP_map

theorem nodup_rowRR (h : ∀ rd ra rd' ra', f rd ra = f rd' ra' → rd = rd' ∧ ra = ra') : (rowRR f).Nodup :=
  (nodup_registers.product nodup_registers).map fun _ _ hxy => Prod.ext_iff.2 (h _ _ _ _ hxy)

theorem nodup_rowRRR (h : ∀ rd ra rb rd' ra' rb', g rd ra rb = g rd' ra' rb' → rd = rd' ∧ ra = ra' ∧ rb = rb') :
    (rowRRR g).Nodup := by
  refine (nodup_registers.product (nodup_registers.product nodup_registers)).map fun _ _ hxy => ?_
  obtain ⟨hrd, hra, hrb⟩ := h _ _ _ _ _ _ hxy
  exact Prod.ext hrd (Prod.ext hra hrb)

theorem nodup_rowRI (h : ∀ rd n rd' n', k rd n = k rd' n' → rd = rd' ∧ n = n') : (rowRI k).Nodup :=
  (nodup_registers.product nodup_lengths).map fun _ _ hxy => Prod.ext_iff.2 (h _ _ _ _ hxy)

end Rows

/-- The commands the encoding can express, row by row of 30_encoding.md R74. -/
def wfCommands : List Instr :=
  rowRR .shlc ++ rowRR .double ++ rowRR .xorinto ++ rowRRR .xorto ++ rowRRR .xorr ++ rowRI .setlen

theorem mem_wfCommands (i : Instr) : i ∈ wfCommands ↔ i.wf = true := by
  cases i with
  | setlen rd imm8 =>
    have hwf : (Instr.setlen rd imm8).wf = true ↔ imm8.toNat ≤ 128 := decide_eq_true_iff
    simp [wfCommands, hwf]
  | _ => simp [wfCommands, Instr.wf]

theorem nodup_wfCommands : wfCommands.Nodup := by
  have hshlc : (rowRR .shlc).Nodup := nodup_rowRR _ fun _ _ _ _ => Instr.shlc.inj
  have hdouble : (rowRR .double).Nodup := nodup_rowRR _ fun _ _ _ _ => Instr.double.inj
  have hxorinto : (rowRR .xorinto).Nodup := nodup_rowRR _ fun _ _ _ _ => Instr.xorinto.inj
  have hxorto : (rowRRR .xorto).Nodup := nodup_rowRRR _ fun _ _ _ _ _ _ => Instr.xorto.inj
  have hxorr : (rowRRR .xorr).Nodup := nodup_rowRRR _ fun _ _ _ _ _ _ => Instr.xorr.inj
  have hsetlen : (rowRI .setlen).Nodup := nodup_rowRI _ fun _ _ _ _ => Instr.setlen.inj
  simp only [wfCommands, List.nodup_append, List.mem_append, mem_rowRR, mem_rowRRR, mem_rowRI, hshlc, hdouble, hxorinto,
    hxorto, hxorr, hsetlen, true_and]
  grind

/-! ### Words counted by the command they decode to -/

/-- A count of words by their command is a count of the well-formed commands: each has one word, the encoder's. -/
theorem countP_decode_eq (p : Decoded → Bool) (hp : ∀ why, p (.illegal why) = false) :
    ((List.range 65536).countP fun n => p (decode (BitVec.ofNat 16 n))) =
      wfCommands.countP fun i => p (.command i) := by
  rw [List.countP_eq_length_filter, List.countP_eq_length_filter, ← List.length_map (fun i => (encode i).toNat)]
  refine List.Perm.length_eq ((List.perm_ext_iff_of_nodup (List.nodup_range.filter _) ?_).2 fun n => ?_)
  · refine List.Nodup.map_on (fun i hi j hj hij => ?_) (nodup_wfCommands.filter _)
    have hwi := decode_encode i ((mem_wfCommands i).1 (List.mem_of_mem_filter hi))
    have hwj := decode_encode j ((mem_wfCommands j).1 (List.mem_of_mem_filter hj))
    rw [BitVec.eq_of_toNat_eq hij, hwj] at hwi
    exact (Decoded.command.inj hwi).symm
  · simp only [List.mem_filter, List.mem_range, List.mem_map, mem_wfCommands]
    constructor
    · rintro ⟨hn, hpn⟩
      cases hd : decode (BitVec.ofNat 16 n) with
      | illegal why => rw [hd, hp] at hpn; cases hpn
      | command i =>
        rw [hd] at hpn
        refine ⟨i, ⟨decode_command_wf _ i hd, hpn⟩, ?_⟩
        rw [encode_of_decode hd, BitVec.toNat_ofNat, Nat.mod_eq_of_lt hn]
    · rintro ⟨i, ⟨hwf, hpi⟩, rfl⟩
      refine ⟨(encode i).isLt, ?_⟩
      rw [BitVec.ofNat_toNat, BitVec.setWidth_eq, decode_encode i hwf]
      exact hpi

end Sys2Proof.Machine

namespace Sys2Proof.Proofs

open Sys2Proof.Machine

/-- Settles O4: each count of words is a count of well-formed commands, which is the size of the rows counted. -/
theorem legalWordCounts : Obligations.LegalWordCounts := by
  unfold Obligations.LegalWordCounts
  intro count
  have hcount (p : Decoded → Bool) (hp : ∀ why, p (.illegal why) = false) :
      count p = wfCommands.countP fun i => p (.command i) := countP_decode_eq p hp
  clear_value count
  refine ⟨?_, ?_, ?_, ?_, ?_, ?_, ?_⟩ <;> rw [hcount]
  all_goals simp [wfCommands, List.countP_append, List.length_product]

end Sys2Proof.Proofs

/-! SUPPORT. What the return of a buffer does to the state, and what the commands of the pseudo-commands do when they
complete. -/

namespace Sys2Proof.Machine

/-! ### A buffer and its length written: what is read back, and what is kept -/

@[simp] theorem State.slice_setLen (s : State) (k j : Reg) (n : Byte) (m : Nat) :
    (s.setLen k n).slice j m = s.slice j m := by
  simp [State.slice]

@[simp] theorem State.count_setLen_same (s : State) (k : Reg) (n : Byte) : (s.setLen k n).count k = n.toNat := by
  simp [State.count]

theorem State.setLen_self (s : State) (k : Reg) : s.setLen k (s.len k) = s := by cases k <;> rfl

/-- The bytes written from index 0 on read back as they were written. -/
theorem State.slice_setCells (s : State) (k : Reg) (bs : List Byte) (hs : Memory.wf s.mem)
    (hcap : bs.length ≤ Config.capacity) : (s.setCells k 0 bs).slice k bs.length = bs := by
  refine List.ext_getElem (State.length_slice _ _ _) fun i hi hbs => ?_
  rw [State.getElem_slice, State.cell_setCells s k k 0 i bs hs (by omega), if_pos ⟨rfl, i.zero_le⟩, Nat.sub_zero,
    List.getD_eq_getElem _ _ hbs]

/-- Writing cells from index 0 on keeps every other cell. -/
theorem State.cellsKeptBut_setCells (s : State) (k : Reg) (bs : List Byte) (hs : Memory.wf s.mem)
    (hcap : bs.length ≤ Config.capacity) : CellsKeptBut s (s.setCells k 0 bs) k bs.length := by
  intro a ha
  rw [State.read_setCells s k 0 bs a hs (by omega)]
  split
  · next hle =>
    refine List.getD_eq_default _ _ (Nat.not_lt.1 fun hlt => ha _ hlt ?_)
    simp only [cellAddr] at hle ⊢
    omega
  · rfl

/-- What a state is after `rd` has been given a buffer of `n` bytes and its length: every other cell and length, `CARRY`, the
fault state and the model's own two fields are as before. -/
structure BufferReturned (s t : State) (rd : Reg) (n : Byte) (bs : List Byte) : Prop where
  len : t.len rd = n
  buffer : t.buffer rd = bs
  cells : CellsKeptBut s t rd n.toNat
  lens : LensKeptBut s t rd
  carry : t.carry = s.carry
  fault : FaultKept s t
  host : HostSideKept s t

theorem bufferReturned_setCells_setLen (s : State) (rd : Reg) (n : Byte) (bs : List Byte) (hs : Memory.wf s.mem)
    (hlen : bs.length = n.toNat) (hcap : n.toNat ≤ Config.capacity) :
    BufferReturned s ((s.setCells rd 0 bs).setLen rd n) rd n bs where
  len := State.len_setLen_same _ _ _
  buffer := by
    rw [State.buffer, State.count_setLen_same, State.slice_setLen, ← hlen]
    exact s.slice_setCells rd bs hs (hlen.trans_le hcap)
  cells := by
    rw [CellsKeptBut, State.setLen_mem, ← hlen]
    exact s.cellsKeptBut_setCells rd bs hs (hlen.trans_le hcap)
  lens k hk := by rw [State.len_setLen_other _ _ _ _ hk, State.len_setCells]
  carry := by simp
  fault := by simp [FaultKept]
  host := by simp [HostSideKept]

/-- Writing as many bytes as `rd` holds is returning them with the length `rd` has. -/
theorem bufferReturned_setCells (s : State) (rd : Reg) (bs : List Byte) (hs : s.Legal) (hlen : bs.length = s.count rd) :
    BufferReturned s (s.setCells rd 0 bs) rd (s.len rd) bs := by
  have hreturned := bufferReturned_setCells_setLen s rd (s.len rd) bs hs.cells hlen (hs.lens rd)
  rwa [← State.len_setCells s rd 0 bs rd, State.setLen_self, State.len_setCells] at hreturned

/-- A buffer returned with the length the register has keeps all lengths. -/
theorem BufferReturned.lensKept {s t : State} {rd : Reg} {bs : List Byte} (h : BufferReturned s t rd (s.len rd) bs) :
    LensKept s t := by
  intro k
  by_cases hk : k = rd
  · rw [hk, h.len]
  · exact h.lens k hk

/-! ### Completed commands -/

theorem exec_xorinto_of_le (rd ra : Reg) (s : State) (hf : s.fault = false) (h : s.count ra ≤ s.count rd) :
    exec (.xorinto rd ra) s =
      .next (s.setCells rd 0 (xorBytes (s.slice rd (s.count ra)) (s.slice ra (s.count ra)))) := by
  rw [exec, execXorinto, State.issueEffect_running s _ hf, if_neg (Nat.not_lt.2 h)]

theorem exec_xorr_of_le (rd ra rb : Reg) (s : State) (hf : s.fault = false) (h : s.count rb ≤ s.count ra) :
    exec (.xorr rd ra rb) s =
      .next ((s.setCells rd 0 (xorAt (s.buffer ra) (s.count ra - s.count rb) (s.buffer rb))).setLen rd (s.len ra)) := by
  rw [exec, execXorr, State.issueEffect_running s _ hf, if_neg (Nat.not_lt.2 h)]

theorem exec_double_of_mem (rd ra : Reg) (s : State) (hf : s.fault = false) (h : s.count ra ∈ fieldSizes) :
    exec (.double rd ra) s = .next ((s.setCells rd 0 (doubled (s.buffer ra))).setLen rd (s.len ra)) := by
  rw [exec, execDouble, State.issueEffect_running s _ hf, if_pos h]

/-! ### XOR with nothing, and with itself -/

theorem xorAt_nil (t : List Byte) (off : Nat) : xorAt t off [] = t := by
  induction t generalizing off with
  | nil => rfl
  | cons b bs ih =>
    cases off with
    | zero => rfl
    | succ off => rw [xorAt, ih]

theorem xorBytes_self (x : List Byte) : xorBytes x x = List.replicate x.length 0x00 := by
  rw [xorBytes, List.zipWith_self, List.eq_replicate_iff]
  simp

theorem State.buffer_of_count_eq_zero (s : State) (k : Reg) (h : s.count k = 0) : s.buffer k = [] :=
  List.eq_nil_of_length_eq_zero ((s.length_buffer k).trans h)

end Sys2Proof.Machine

/-! SUPPORT. The pseudo-commands (30_encoding.md R80), settled. -/

namespace Sys2Proof.Proofs

open Sys2Proof.Machine

/-- `COPY`: `XORR` with an empty second operand returns the first. -/
theorem exec_xorr_of_empty (d a z : Reg) (s : State) (hf : s.fault = false) (hz : s.count z = 0) :
    exec (.xorr d a z) s = .next ((s.setCells d 0 (s.buffer a)).setLen d (s.len a)) := by
  rw [exec_xorr_of_le d a z s hf (hz.trans_le (Nat.zero_le _)), s.buffer_of_count_eq_zero z hz, xorAt_nil]

/-- `ZERO`: `XORINTO` of a register into itself writes zeros. -/
theorem exec_xorinto_self (d : Reg) (s : State) (hf : s.fault = false) :
    exec (.xorinto d d) s = .next (s.setCells d 0 (List.replicate (s.count d) 0x00)) := by
  rw [exec_xorinto_of_le d d s hf le_rfl, xorBytes_self, State.length_slice]

/-- Settles O17: each expansion returns a buffer into `d`, and in place its length is the one `d` has. -/
theorem pseudoCommandsDoWhatTheySay : Obligations.PseudoCommandsDoWhatTheySay := by
  refine ⟨fun d a z s hs hf hz => ?_, fun d s hs hf => ?_, fun d s hs hf hsize => ?_⟩
  · have h := bufferReturned_setCells_setLen s d (s.len a) (s.buffer a) hs.cells (s.length_buffer a) (hs.lens a)
    exact ⟨_, exec_xorr_of_empty d a z s hf hz, h.len, h.buffer, h.cells, h.lens, h.carry, h.fault, h.host⟩
  · have h := bufferReturned_setCells s d (List.replicate (s.count d) 0x00) hs List.length_replicate
    exact ⟨_, exec_xorinto_self d s hf, h.len, h.buffer, h.cells, h.lensKept, h.carry, h.fault, h.host⟩
  · have h := bufferReturned_setCells_setLen s d (s.len d) (doubled (s.buffer d)) hs.cells
      ((length_doubled _).trans (s.length_buffer d)) (hs.lens d)
    exact ⟨_, exec_double_of_mem d d s hf hsize, h.buffer, h.cells, h.lensKept, h.carry, h.fault, h.host⟩

end Sys2Proof.Proofs

/-! SUPPORT. The one-bit shift on bytes and on numbers, and the reduction with and without its constant
(40_field_arithmetic.md). -/

namespace Sys2Proof.Machine

/-! ### One byte of the shift (40_field_arithmetic.md R91, R93) -/

theorem toNat_bitByte (c : Bool) : (bitByte c).toNat = c.toNat := by cases c <;> rfl

/-- Moved up by one bit, a byte takes the bit that comes in as its lowest. -/
theorem getLsbD_shiftLeft_or_bitByte (b : Byte) (c : Bool) (j : Nat) (hj : j < 8) :
    ((b <<< 1) ||| bitByte c).getLsbD j = if j = 0 then c else b.getLsbD (j - 1) := by
  have hbit : (bitByte c).getLsbD j = (c && decide (j = 0)) := bitByte_getElem c j hj
  rw [BitVec.getLsbD_or, BitVec.getLsbD_shiftLeft, hbit]
  by_cases h : j = 0
  · simp [h]
  · simp [h, hj]

/-- The bit that leaves a byte weighs 256, the bit that comes in weighs 1. -/
theorem toNat_shiftLeft_or_bitByte (b : Byte) (c : Bool) :
    256 * (b.getLsbD 7).toNat + ((b <<< 1) ||| bitByte c).toNat = 2 * b.toNat + c.toNat := by
  have htop : b.getLsbD 7 = decide (128 ≤ b.toNat) := BitVec.msb_eq_decide b
  have hshift : b.toNat <<< 1 % 2 ^ 8 = (b.toNat % 128) <<< 1 := by
    simp only [Nat.shiftLeft_eq]
    omega
  have hin : c.toNat < 2 ^ 1 := c.toNat_lt
  rw [htop, BitVec.toNat_or, BitVec.toNat_shiftLeft, toNat_bitByte, hshift, ← Nat.shiftLeft_add_eq_or_of_lt hin,
    Nat.shiftLeft_eq]
  have hb := b.isLt
  by_cases h : 128 ≤ b.toNat
  · rw [decide_eq_true h, Bool.toNat_true]
    omega
  · rw [decide_eq_false h, Bool.toNat_false]
    omega

/-! ### The shift as a doubling of the number (40_field_arithmetic.md R92) -/

theorem val_lt (bs : List Byte) : val bs < 2 ^ (8 * bs.length) := by
  induction bs with
  | nil => exact Nat.one_pos
  | cons b bs ih =>
    have hb : b.toNat + 1 ≤ 256 := b.isLt
    have hq : 2 ^ (8 * bs.length) = 256 ^ bs.length := Nat.pow_mul 2 8 _
    rw [hq] at ih
    calc val (b :: bs) < (b.toNat + 1) * 256 ^ bs.length := by rw [val, Nat.succ_mul]; omega
      _ ≤ 256 * 256 ^ bs.length := Nat.mul_le_mul_right _ hb
      _ = 2 ^ (8 * (b :: bs).length) := by rw [Nat.pow_mul, List.length_cons, Nat.pow_succ']

/-- The bit shifted out, in front of the shifted bytes, makes twice the number: by induction from the last byte on, each byte
handing its top bit to the one before it. -/
theorem carry_add_val_shl1 (bs : List Byte) :
    (shl1 bs).2.toNat * 2 ^ (8 * bs.length) + val (shl1 bs).1 = 2 * val bs := by
  simp only [Nat.pow_mul]
  induction bs with
  | nil => rfl
  | cons b bs ih =>
    simp only [shl1, val, length_shl1, List.length_cons]
    calc (b.getLsbD 7).toNat * (2 ^ 8) ^ (bs.length + 1) +
          (((b <<< 1) ||| bitByte (shl1 bs).2).toNat * 256 ^ bs.length + val (shl1 bs).1)
        = (256 * (b.getLsbD 7).toNat + ((b <<< 1) ||| bitByte (shl1 bs).2).toNat) * 256 ^ bs.length +
            val (shl1 bs).1 := by ring
      _ = 2 * b.toNat * 256 ^ bs.length + ((shl1 bs).2.toNat * (2 ^ 8) ^ bs.length + val (shl1 bs).1) := by
          rw [toNat_shiftLeft_or_bitByte]; ring
      _ = 2 * (b.toNat * 256 ^ bs.length + val bs) := by rw [ih]; ring

/-- The bit shifted out and the shifted number are quotient and remainder of twice the number. -/
theorem two_mul_val_div_mod (bs : List Byte) :
    2 * val bs / 2 ^ (8 * bs.length) = (shl1 bs).2.toNat ∧ 2 * val bs % 2 ^ (8 * bs.length) = val (shl1 bs).1 := by
  refine (Nat.div_mod_unique (Nat.two_pow_pos _)).2 ⟨?_, ?_⟩
  · rw [← carry_add_val_shl1, Nat.mul_comm, Nat.add_comm]
  · have h := val_lt (shl1 bs).1
    rwa [length_shl1] at h

theorem val_shl1 (bs : List Byte) : val (shl1 bs).1 = 2 * val bs % 2 ^ (8 * bs.length) :=
  (two_mul_val_div_mod bs).2.symm

/-- The bit shifted out is the top bit of the number. -/
theorem toNat_shl1_carry (bs : List Byte) (h : 1 ≤ bs.length) :
    (shl1 bs).2.toNat = val bs / 2 ^ (8 * bs.length - 1) := by
  have hpow : 2 ^ (8 * bs.length) = 2 * 2 ^ (8 * bs.length - 1) := by
    rw [← Nat.pow_succ', Nat.succ_eq_add_one, Nat.sub_add_cancel (by omega)]
  rw [← (two_mul_val_div_mod bs).1, hpow, Nat.mul_div_mul_left _ _ Nat.two_pos]

theorem testBit_val_shl1 (bs : List Byte) (j : Nat) :
    (val (shl1 bs).1).testBit j = (decide (j < 8 * bs.length) && (decide (1 ≤ j) && (val bs).testBit (j - 1))) := by
  have hdouble : (2 ^ 1 * val bs).testBit j = (decide (1 ≤ j) && (val bs).testBit (j - 1)) := Nat.testBit_two_pow_mul
  rw [val_shl1, Nat.testBit_mod_two_pow, ← hdouble, Nat.pow_one]

/-! ### The masked selection and the reduction (40_field_arithmetic.md R98, R100) -/

/-- XOR with zeros, wherever they are put, changes nothing. -/
theorem xorAt_replicate_zero (t : List Byte) (off n : Nat) : xorAt t off (List.replicate n 0) = t := by
  induction t generalizing off n with
  | nil => rfl
  | cons b bs ih =>
    cases off with
    | succ off => rw [xorAt, ih]
    | zero =>
      cases n with
      | zero => rfl
      | succ n => rw [List.replicate_succ, xorAt, ih, show b ^^^ 0 = b from BitVec.xor_zero]

/-- The constant masked with zeros is XORed in without effect. -/
theorem reduce_false (t : List Byte) : reduce t false = t := by
  have hmask : ∀ p : Byte, p &&& selectMask false = 0 := fun p => by
    rw [selectMask_false]; exact BitVec.and_zero
  simp only [reduce, hmask, List.map_const', xorAt_replicate_zero]

/-- The constant masked with ones is the constant. -/
theorem reduce_true (t : List Byte) :
    reduce t true = xorAt t (t.length - (poly t.length).length) (poly t.length) := by
  have hmask : ∀ p : Byte, p &&& selectMask true = p := fun p => by
    rw [selectMask_true]; exact BitVec.and_allOnes
  simp only [reduce, hmask, List.map_id']

/-! ### Bytes of buffers, and writing them twice -/

theorem State.getD_buffer (s : State) (k : Reg) (i : Nat) (d : Byte) (h : i < s.count k) :
    (s.buffer k).getD i d = s.cell k i :=
  s.getD_slice k _ i d h

theorem State.getD_buffer_of_ge (s : State) (k : Reg) (i : Nat) (d : Byte) (h : s.count k ≤ i) :
    (s.buffer k).getD i d = d :=
  List.getD_eq_default _ _ ((s.length_buffer k).trans_le h)

/-- Cells of a buffer returned, one by one. -/
theorem BufferReturned.cell {s t : State} {rd : Reg} {n : Byte} {bs : List Byte} (h : BufferReturned s t rd n bs)
    (i : Nat) (hi : i < n.toNat) : t.cell rd i = bs.getD i 0 := by
  rw [← h.buffer, State.getD_buffer t rd i 0 (by rwa [State.count, h.len])]

/-- Writing cells changes the memory and nothing else. -/
theorem State.setCells_eq_mem_update (s : State) (k : Reg) (i : Nat) (bs : List Byte) :
    s.setCells k i bs = { s with mem := (s.setCells k i bs).mem } := by
  induction bs generalizing s i with
  | nil => rfl
  | cons b bs ih =>
    rw [State.setCells, ih, State.setCell]
    split <;> rfl

/-- Of two writes of equally many cells the first leaves no trace, because memories that read alike are equal. -/
theorem State.setCells_setCells (s : State) (k : Reg) (bs cs : List Byte) (hs : Memory.wf s.mem)
    (hlen : bs.length = cs.length) (hcap : cs.length ≤ Config.capacity) :
    (s.setCells k 0 bs).setCells k 0 cs = s.setCells k 0 cs := by
  have hbs := s.setCells_wf k 0 bs hs
  have hmem : ((s.setCells k 0 bs).setCells k 0 cs).mem = (s.setCells k 0 cs).mem := by
    refine Memory.eq_of_read_eq _ _ (State.setCells_wf _ k 0 cs hbs) (s.setCells_wf k 0 cs hs) fun a => ?_
    rw [State.read_setCells _ k 0 cs a hbs (by omega), State.read_setCells s k 0 cs a hs (by omega),
      State.read_setCells s k 0 bs a hs (by omega)]
    split
    · rcases Nat.lt_or_ge (a - cellAddr k 0) cs.length with hin | hout
      · rw [List.getD_eq_getElem _ _ hin, List.getD_eq_getElem _ _ hin]
      · rw [List.getD_eq_default _ _ hout, List.getD_eq_default _ _ hout, List.getD_eq_default _ _ (hlen.trans_le hout)]
    · rfl
  rw [State.setCells_eq_mem_update, hmem, s.setCells_eq_mem_update k 0 bs]
  exact (s.setCells_eq_mem_update k 0 cs).symm

@[simp] theorem State.count_setCells (s : State) (k : Reg) (i : Nat) (bs : List Byte) (j : Reg) :
    (s.setCells k i bs).count j = s.count j := by
  simp [State.count]

/-- Cells written into one register leave the buffer of another. -/
theorem State.buffer_setCells_other (s : State) (k j : Reg) (bs : List Byte) (hs : Memory.wf s.mem)
    (hcap : bs.length ≤ Config.capacity) (hkj : k ≠ j) : (s.setCells k 0 bs).buffer j = s.buffer j := by
  rw [State.buffer, State.buffer, State.count_setCells]
  refine List.map_congr_left fun i _ => ?_
  rw [s.cell_setCells k j 0 i bs hs (by omega), if_neg fun h => hkj h.1]

theorem State.setLen_setCells_self (s : State) (k : Reg) (i : Nat) (bs : List Byte) :
    (s.setCells k i bs).setLen k (s.len k) = s.setCells k i bs := by
  rw [← State.len_setCells s k i bs k, State.setLen_self]

/-! ### `SHLC`, `DOUBLE` and `XORR`: completed, in place, and faulting -/

theorem exec_shlc_of_eq (rd ra : Reg) (s : State) (hf : s.fault = false) (h : s.len rd = s.len ra) :
    exec (.shlc rd ra) s =
      .next ((s.setCells rd 0 (shl1 (s.buffer ra)).1).setCarry (shl1 (s.buffer ra)).2) := by
  rw [exec, execShlc, State.issueEffect_running s _ hf, if_pos h]

theorem exec_shlc_of_ne (rd ra : Reg) (s : State) (hf : s.fault = false) (h : s.len rd ≠ s.len ra) :
    exec (.shlc rd ra) s = .next (s.raiseFault .lengthPrecondition) := by
  rw [exec, execShlc, State.issueEffect_running s _ hf, if_neg h]

theorem exec_double_of_notMem (rd ra : Reg) (s : State) (hf : s.fault = false) (h : s.count ra ∉ fieldSizes) :
    exec (.double rd ra) s = .next (s.raiseFault .unsupportedFieldSize) := by
  rw [exec, execDouble, State.issueEffect_running s _ hf, if_neg h]

theorem exec_double_in_place (a : Reg) (s : State) (hf : s.fault = false) (h : s.count a ∈ fieldSizes) :
    exec (.double a a) s = .next (s.setCells a 0 (doubled (s.buffer a))) := by
  rw [exec_double_of_mem a a s hf h, State.setLen_setCells_self]

theorem exec_xorr_in_place (a p : Reg) (s : State) (hf : s.fault = false) (h : s.count p ≤ s.count a) :
    exec (.xorr a a p) s = .next (s.setCells a 0 (xorAt (s.buffer a) (s.count a - s.count p) (s.buffer p))) := by
  rw [exec_xorr_of_le a a p s hf h, State.setLen_setCells_self]

end Sys2Proof.Machine

/-! SUPPORT. The statements about field arithmetic (40_field_arithmetic.md), settled. -/

namespace Sys2Proof.Proofs

open Sys2Proof.Machine Sys2Proof.Statements

/-- Settles O27: the mask is all zeros or all ones, so what it is ANDed with is gone or whole. -/
theorem maskedSelectionIsTheBranch : Obligations.MaskedSelectionIsTheBranch := by
  refine ⟨selectMask_false, selectMask_true, fun v p => ?_, fun t v => ?_⟩
  · have hzero : (selectMask v &&& p) ||| (~~~(selectMask v) &&& 0) = selectMask v &&& p := by
      rw [show ~~~(selectMask v) &&& 0 = 0 from BitVec.and_zero]
      exact BitVec.or_zero
    rw [hzero]
    cases v with
    | false => rw [selectMask_false]; exact BitVec.zero_and
    | true => rw [selectMask_true]; exact BitVec.allOnes_and
  · cases v with
    | false => exact reduce_false t
    | true => exact reduce_true t

/-- Settles O22: quotient and remainder of twice the number by `2 ^ n`, and the bits of the remainder. -/
theorem shiftIsDoublingOfTheNumber : Obligations.ShiftIsDoublingOfTheNumber := by
  refine fun bs => ⟨fun hlen => ⟨val_shl1 bs, ?_, shl1_carry bs, fun j hj hjn => ?_, ?_⟩, fun hlen => ?_⟩
  · exact (Bool.cond_eq_ite _ 1 0).symm.trans (toNat_shl1_carry bs hlen)
  · rw [testBit_val_shl1, decide_eq_true hj, decide_eq_true hjn, Bool.true_and, Bool.true_and]
  · rw [testBit_val_shl1]
    simp
  · rw [List.eq_nil_of_length_eq_zero hlen]
    exact ⟨rfl, rfl⟩

/-! ### The shifted bits and the constant, as the spec's tables give them (40_field_arithmetic.md R93, R97) -/

/-- Bit by bit the shift of a buffer is the spec's. -/
theorem getLsbD_shl1_buffer (s : State) (k : Reg) (i b : Nat) (hi : i < s.count k) (hb : b < 8) :
    ((shl1 (s.buffer k)).1.getD i 0).getLsbD b = shiftedBit s k (s.count k) i b := by
  rw [getD_shl1 _ i 0 (by rwa [State.length_buffer]), getLsbD_shiftLeft_or_bitByte _ _ b hb, shiftedBit,
    s.getD_buffer k i 0 hi]
  rcases Nat.lt_or_ge (i + 1) (s.count k) with hnext | hlast
  · rw [s.getD_buffer k (i + 1) 0 hnext, decide_eq_true hnext, Bool.true_and]
  · rw [s.getD_buffer_of_ge k (i + 1) 0 hlast, decide_eq_false (Nat.not_lt.2 hlast), Bool.false_and]
    exact congrArg (if b = 0 then · else _) BitVec.getLsbD_zero

theorem length_poly (L : Nat) (hL : L ∈ fieldSizes) : (poly L).length = constantLength L := by
  revert L; decide

theorem constantLength_le (L : Nat) (hL : L ∈ fieldSizes) : constantLength L ≤ L := by
  revert L; decide

theorem poly_getD (L : Nat) (hL : L ∈ fieldSizes) (j : Nat) (hj : j < constantLength L) :
    (poly L).getD j 0 = constantByte L (L - constantLength L + j) := by
  revert L j; decide

/-- In front of its last `PLEN(L)` bytes the constant is zero. -/
theorem constantByte_eq_zero (L i : Nat) (hi : i < L - constantLength L) : constantByte L i = 0 := by
  unfold constantByte
  split
  case h_9 => rfl
  all_goals exact absurd hi (by decide)

/-- Byte by byte the reduction XORs in the constant when the bit shifted out was 1, and nothing else. -/
theorem getD_reduce (t : List Byte) (v : Bool) (i : Nat) (hL : t.length ∈ fieldSizes) (hi : i < t.length) :
    (reduce t v).getD i 0 = t.getD i 0 ^^^ (if v then constantByte t.length i else 0) := by
  cases v with
  | false => rw [reduce_false]; exact BitVec.xor_zero.symm
  | true =>
    have hle := constantLength_le _ hL
    rw [reduce_true, getD_xorAt t _ _ i 0 hi, length_poly _ hL, if_pos rfl]
    split
    · next hin => rw [poly_getD _ hL _ (by omega), Nat.add_sub_cancel' hin]
    · next hfront => rw [constantByte_eq_zero _ _ (Nat.not_le.1 hfront)]

/-- Bit by bit the doubling of a buffer: the shifted bit, and the constant's when the top bit was 1. -/
theorem getLsbD_doubled_buffer (s : State) (k : Reg) (i b : Nat) (hsize : s.count k ∈ fieldSizes) (hi : i < s.count k)
    (hb : b < 8) : ((doubled (s.buffer k)).getD i 0).getLsbD b =
      (shiftedBit s k (s.count k) i b ^^ ((s.cell k 0).getLsbD 7 && (constantByte (s.count k) i).getLsbD b)) := by
  have hlen : (shl1 (s.buffer k)).1.length = s.count k := (length_shl1 _).trans (s.length_buffer k)
  have hcarry : (shl1 (s.buffer k)).2 = (s.cell k 0).getLsbD 7 := by
    rw [shl1_buffer_carry, decide_eq_true (Nat.zero_lt_of_lt hi), Bool.true_and]
  rw [doubled, getD_reduce _ _ i (by rwa [hlen]) (by rwa [hlen]), hlen, hcarry, BitVec.getLsbD_xor,
    getLsbD_shl1_buffer s k i b hi hb]
  cases (s.cell k 0).getLsbD 7 <;> simp

/-- Settles O9: the shifted bytes are returned into `rd`, which keeps its length, and `CARRY` is set beside them. -/
theorem shlcShiftsTheWholeBuffer : Obligations.ShlcShiftsTheWholeBuffer := by
  intro rd ra s hs hf
  refine ⟨encode_shlc_eq_rrWord rd ra ▸ decode_encode (.shlc rd ra) rfl, exec_shlc_of_ne rd ra s hf, fun hl => ?_⟩
  have hcount : s.count rd = s.count ra := congrArg BitVec.toNat hl
  have h := bufferReturned_setCells s rd (shl1 (s.buffer ra)).1 hs
    ((length_shl1 _).trans ((s.length_buffer ra).trans hcount.symm))
  refine ⟨_, exec_shlc_of_eq rd ra s hf hl, fun i b hi hb => ?_, shl1_buffer_carry s ra, hcount ▸ h.cells, fun k => ?_,
    h.fault, h.host⟩
  · rw [State.cell_setCarry, h.cell i (hi.trans_eq hcount.symm), getLsbD_shl1_buffer s ra i b hi hb]
  · rw [State.len_setCarry, h.lensKept k]

/-- Settles O10: the doubled bytes are returned into `rd` with the length of `ra`. -/
theorem doubleShiftsAndReduces : Obligations.DoubleShiftsAndReduces := by
  intro rd ra s hs hf
  refine ⟨encode_double_eq_rrWord rd ra ▸ decode_encode (.double rd ra) rfl, exec_double_of_notMem rd ra s hf,
    fun hsize => ?_⟩
  have h := bufferReturned_setCells_setLen s rd (s.len ra) (doubled (s.buffer ra)) hs.cells
    ((length_doubled _).trans (s.length_buffer ra)) (hs.lens ra)
  refine ⟨_, exec_double_of_mem rd ra s hf hsize, fun i b hi hb => ?_, h.len, h.lens, h.carry, h.cells, h.fault, h.host⟩
  rw [h.cell i hi, getLsbD_doubled_buffer s ra i b hsize hi hb]

/-! ### `DOUBLE` as `SHLC` and `XORR` (40_field_arithmetic.md R105) -/

/-- A buffer that holds the constant's bytes is the constant. -/
theorem buffer_eq_poly (s : State) (p : Reg) (L : Nat) (hL : L ∈ fieldSizes) (hlen : s.count p = constantLength L)
    (hbytes : ∀ j, j < s.count p → s.cell p j = constantByte L (L - s.count p + j)) : s.buffer p = poly L := by
  have hpoly : (poly L).length = s.count p := (length_poly L hL).trans hlen.symm
  refine List.ext_getElem ((s.length_buffer p).trans hpoly.symm) fun j hj hj' => ?_
  rw [s.length_buffer] at hj
  rw [← List.getD_eq_getElem _ 0 hj', poly_getD L hL j (hlen ▸ hj), ← hlen, ← hbytes j hj]
  exact s.getElem_slice p _ j _

/-- No constant is as long as its field, so it stands in a register of its own. -/
theorem constantLength_ne (L : Nat) (hL : L ∈ fieldSizes) : constantLength L ≠ L := by
  revert L; decide

/-- With the constant in another register, `XORR` onto the shifted buffer writes what the reduction writes. -/
theorem exec_xorr_constant_in_place (a p : Reg) (s : State) (t : List Byte) (hs : s.Legal) (hf : s.fault = false)
    (hlen : t.length = s.count a) (hap : a ≠ p) (hle : s.count p ≤ s.count a) (hp : s.buffer p = poly t.length) :
    exec (.xorr a a p) ((s.setCells a 0 t).setCarry true) =
      .next ((s.setCells a 0 (reduce t true)).setCarry true) := by
  have hcap : t.length ≤ Config.capacity := hlen.trans_le (hs.lens a)
  have hta : (s.setCells a 0 t).buffer a = t := (bufferReturned_setCells s a t hs hlen).buffer
  have hplen : (poly t.length).length = s.count p := by rw [← hp, s.length_buffer]
  rw [exec_xorr_in_place a p _ (by simpa using hf) (by simpa using hle)]
  simp only [State.count_setCarry, State.buffer_setCarry, State.setCells_setCarry, State.count_setCells]
  rw [hta, s.buffer_setCells_other a p t hs.cells hcap hap, hp, ← hlen, ← hplen, ← reduce_true,
    s.setCells_setCells a t _ hs.cells (length_reduce t true).symm ((length_reduce t true).trans_le hcap)]

/-- Settles O20: `SHLC` leaves the shifted buffer and the bit shifted out; where that is 1, `XORR` overwrites it with the
reduced one, and where it is 0 there is nothing to reduce. -/
theorem doubleIsShlcThenXorrWithTheConstant : Obligations.DoubleIsShlcThenXorrWithTheConstant := by
  intro a p s hs hf hsize hplen hbytes
  have hap : a ≠ p := by
    rintro rfl
    exact constantLength_ne _ hsize hplen.symm
  have hlen : (shl1 (s.buffer a)).1.length = s.count a := (length_shl1 _).trans (s.length_buffer a)
  have hp := buffer_eq_poly s p _ hsize hplen hbytes
  refine ⟨_, _, exec_double_in_place a s hf hsize, exec_shlc_of_eq a a s hf rfl, fun hc => ?_, fun hc => ?_⟩
  · rw [State.setCarry_carry] at hc
    rw [hc, exec_xorr_constant_in_place a p s _ hs hf hlen hap (hplen.trans_le (constantLength_le _ hsize))
      (hlen.symm ▸ hp), doubled, hc]
    rfl
  · rw [State.setCarry_carry] at hc
    rw [hc, doubled, hc, reduce_false]
    rfl

end Sys2Proof.Proofs

/-! SUPPORT. What `XORINTO`, `XORTO` and `XORR` do, faulting and completed, and what it means to write the first cells of a
register and leave its length (41_buffer_combination.md). -/

namespace Sys2Proof.Machine

/-! ### The first cells of a register written -/

/-- What a state is after the first `n` bytes of `rd` are overwritten: every other cell, all lengths, `CARRY`, the fault
state and the model's own two fields are as before. -/
structure PrefixWritten (s t : State) (rd : Reg) (n : Nat) (bs : List Byte) : Prop where
  cell : ∀ i, i < n → t.cell rd i = bs.getD i 0
  cells : CellsKeptBut s t rd n
  lens : LensKept s t
  carry : t.carry = s.carry
  fault : FaultKept s t
  host : HostSideKept s t

theorem prefixWritten_setCells (s : State) (rd : Reg) (n : Nat) (bs : List Byte) (hs : Memory.wf s.mem)
    (hlen : bs.length = n) (hcap : n ≤ Config.capacity) : PrefixWritten s (s.setCells rd 0 bs) rd n bs where
  cell i hi := by
    rw [s.cell_setCells rd rd 0 i bs hs (by omega), if_pos ⟨rfl, i.zero_le⟩, Nat.sub_zero,
      List.getD_eq_getElem _ _ (hi.trans_eq hlen.symm), List.getD_eq_getElem]
  cells := hlen ▸ s.cellsKeptBut_setCells rd bs hs (hlen.trans_le hcap)
  lens := State.len_setCells s rd 0 bs
  carry := by simp
  fault := by simp [FaultKept]
  host := by simp [HostSideKept]

/-- To write into cells the bytes they hold changes nothing. -/
theorem State.setCells_slice_self (s : State) (k : Reg) (n : Nat) (hs : Memory.wf s.mem) (hcap : n ≤ Config.capacity) :
    s.setCells k 0 (s.slice k n) = s := by
  have hlen := s.length_slice k n
  have hmem : (s.setCells k 0 (s.slice k n)).mem = s.mem := by
    refine Memory.eq_of_read_eq _ _ (s.setCells_wf k 0 _ hs) hs fun a => ?_
    rw [s.read_setCells k 0 _ a hs (by omega)]
    split
    · next hle =>
      rcases Nat.lt_or_ge (a - cellAddr k 0) n with hin | hout
      · have haddr : cellAddr k (a - cellAddr k 0) = a := Nat.add_sub_cancel' hle
        rw [s.getD_slice k n _ _ hin, State.cell, if_pos (hin.trans_le hcap), haddr]
      · exact List.getD_eq_default _ _ (hlen.trans_le hout)
    · rfl
  rw [State.setCells_eq_mem_update, hmem]

/-! ### XOR of slices and of buffers, byte by byte -/

theorem length_xorBytes_slice (s : State) (j k : Reg) (n : Nat) : (xorBytes (s.slice j n) (s.slice k n)).length = n := by
  simp

theorem getD_xorBytes_slice (s : State) (j k : Reg) (n i : Nat) (hi : i < n) :
    (xorBytes (s.slice j n) (s.slice k n)).getD i 0 = s.cell j i ^^^ s.cell k i := by
  rw [getD_xorBytes _ _ i 0 (by simpa using hi) (by simpa using hi), s.getD_slice j n i 0 hi, s.getD_slice k n i 0 hi]

theorem getD_xorAt_buffer_front (s : State) (j k : Reg) (off i : Nat) (hi : i < s.count j) (hoff : i < off) :
    (xorAt (s.buffer j) off (s.buffer k)).getD i 0 = s.cell j i := by
  rw [getD_xorAt _ _ _ i 0 (hi.trans_eq (s.length_buffer j).symm), if_neg (Nat.not_le.2 hoff), s.getD_buffer j i 0 hi]
  exact BitVec.xor_zero

theorem getD_xorAt_buffer_back (s : State) (j k : Reg) (off i : Nat) (hj : off + i < s.count j) (hk : i < s.count k) :
    (xorAt (s.buffer j) off (s.buffer k)).getD (off + i) 0 = s.cell j (off + i) ^^^ s.cell k i := by
  rw [getD_xorAt _ _ _ _ 0 (hj.trans_eq (s.length_buffer j).symm), if_pos (Nat.le_add_right off i),
    Nat.add_sub_cancel_left, s.getD_buffer j _ 0 hj, s.getD_buffer k i 0 hk]

/-- XORed in twice, a sequence is gone. -/
theorem xorBytes_xorBytes_cancel (x y : List Byte) (h : x.length ≤ y.length) : xorBytes (xorBytes x y) y = x := by
  refine List.ext_getElem (by simp [h]) fun i hi hx => ?_
  simp only [xorBytes, List.getElem_zipWith]
  rw [BitVec.xor_assoc, BitVec.xor_self, BitVec.xor_zero]

/-! ### `XORTO` and `XORR`: completed and faulting -/

theorem exec_xorto_of_le (rd ra rb : Reg) (s : State) (hf : s.fault = false) (hd : s.count rb ≤ s.count rd)
    (ha : s.count rb ≤ s.count ra) :
    exec (.xorto rd ra rb) s =
      .next (s.setCells rd 0 (xorBytes (s.slice ra (s.count rb)) (s.slice rb (s.count rb)))) := by
  rw [exec, execXorto, State.issueEffect_running s _ hf,
    if_neg (not_or.2 ⟨Nat.not_lt.2 hd, Nat.not_lt.2 ha⟩)]

theorem exec_xorto_of_lt (rd ra rb : Reg) (s : State) (hf : s.fault = false)
    (h : s.count rd < s.count rb ∨ s.count ra < s.count rb) :
    exec (.xorto rd ra rb) s = .next (s.raiseFault .lengthPrecondition) := by
  rw [exec, execXorto, State.issueEffect_running s _ hf, if_pos h]

theorem exec_xorr_of_lt (rd ra rb : Reg) (s : State) (hf : s.fault = false) (h : s.count ra < s.count rb) :
    exec (.xorr rd ra rb) s = .next (s.raiseFault .lengthPrecondition) := by
  rw [exec, execXorr, State.issueEffect_running s _ hf, if_pos h]

end Sys2Proof.Machine

/-! SUPPORT. The statements about buffer combination (41_buffer_combination.md), settled. -/

namespace Sys2Proof.Proofs

open Sys2Proof.Machine Sys2Proof.Statements

/-- Settles O18: with Z = X the two length conditions of `XORTO` are the one of `XORINTO`, and the bytes are the same. -/
theorem xortoOntoItselfIsXorinto : Obligations.XortoOntoItselfIsXorinto := by
  intro rd ra s
  simp only [exec, execXorto, execXorinto, or_self]

/-- Settles O12: over the third operand's length the XOR is written into the first cells of `rd`. -/
theorem xortoXorsIntoAThirdBuffer : Obligations.XortoXorsIntoAThirdBuffer := by
  intro rd ra rb s hs hf
  refine ⟨encode_xorto_eq_rrrWord rd ra rb ▸ decode_encode (.xorto rd ra rb) rfl, exec_xorto_of_lt rd ra rb s hf,
    fun hd ha => ?_⟩
  have h := prefixWritten_setCells s rd _ _ hs.cells (length_xorBytes_slice s ra rb _) (hs.lens rb)
  refine ⟨_, exec_xorto_of_le rd ra rb s hf hd ha, fun i hi => ?_, h.cells, h.lens, h.carry, h.fault, h.host⟩
  rw [h.cell i hi, getD_xorBytes_slice s ra rb _ i hi]

/-- Settles O11: `XORINTO rd, ra` is `XORTO rd, rd, ra`, whose statement says the rest. -/
theorem xorintoXorsInPlace : Obligations.XorintoXorsInPlace := by
  intro rd ra s hs hf
  obtain ⟨-, hfaults, hcompletes⟩ := xortoXorsIntoAThirdBuffer rd rd ra s hs hf
  rw [xortoOntoItselfIsXorinto rd ra s] at hfaults hcompletes
  exact ⟨encode_xorinto_eq_rrWord rd ra ▸ decode_encode (.xorinto rd ra) rfl, fun h => hfaults (.inl h),
    fun h => hcompletes h h⟩

/-- Settles O13: the copy with the XOR at its right is returned into `rd` with the length of `ra`. -/
theorem xorrXorsAtTheRight : Obligations.XorrXorsAtTheRight := by
  intro rd ra rb s hs hf
  refine ⟨encode_xorr_eq_rrrWord rd ra rb ▸ decode_encode (.xorr rd ra rb) rfl, exec_xorr_of_lt rd ra rb s hf,
    fun hle => ?_⟩
  have h := bufferReturned_setCells_setLen s rd (s.len ra) _ hs.cells
    ((length_xorAt (s.buffer ra) (s.count ra - s.count rb) (s.buffer rb)).trans (s.length_buffer ra)) (hs.lens ra)
  refine ⟨_, exec_xorr_of_le rd ra rb s hf hle, fun i hi => ?_, fun i hi => ?_, h.len, h.lens, h.cells, h.carry, h.fault,
    h.host⟩
  · have hia : i < s.count ra := by omega
    rw [h.cell i hia, getD_xorAt_buffer_front s ra rb _ i hia hi]
  · have hia : s.count ra - s.count rb + i < s.count ra := by omega
    rw [h.cell _ hia, getD_xorAt_buffer_back s ra rb _ i hia hi]

/-! ### `XORINTO` twice (41_buffer_combination.md R122) -/

/-- On distinct registers the second `XORINTO` finds the same operand, and writes back the bytes that stood there. -/
theorem exec_xorinto_after_xorinto (rd ra : Reg) (s : State) (hs : s.Legal) (hf : s.fault = false) (hne : rd ≠ ra)
    (hle : s.count ra ≤ s.count rd) :
    exec (.xorinto rd ra) (s.setCells rd 0 (xorBytes (s.slice rd (s.count ra)) (s.slice ra (s.count ra)))) = .next s := by
  have hcap := hs.lens ra
  have hx := s.length_slice rd (s.count ra)
  have hlen := length_xorBytes_slice s rd ra (s.count ra)
  have hrd := s.slice_setCells rd _ hs.cells (hlen.trans_le hcap)
  have hra := s.buffer_setCells_other rd ra _ hs.cells (hlen.trans_le hcap) hne
  rw [hlen] at hrd
  rw [State.buffer, State.buffer, State.count_setCells] at hra
  rw [exec_xorinto_of_le rd ra _ (by simpa using hf) (by simpa using hle), State.count_setCells, hrd, hra,
    xorBytes_xorBytes_cancel _ _ (hx.trans (s.length_slice ra _).symm).le,
    s.setCells_setCells rd _ _ hs.cells (hlen.trans hx.symm) (hx.trans_le hcap), s.setCells_slice_self rd _ hs.cells hcap]

/-- On one register the second `XORINTO` finds zeros and writes the same zeros. -/
theorem exec_xorinto_self_after_zeros (d : Reg) (s : State) (hs : s.Legal) (hf : s.fault = false) :
    exec (.xorinto d d) (s.setCells d 0 (List.replicate (s.count d) 0x00)) =
      .next (s.setCells d 0 (List.replicate (s.count d) 0x00)) := by
  rw [exec_xorinto_self d _ (by simpa using hf), State.count_setCells,
    s.setCells_setCells d _ _ hs.cells rfl (List.length_replicate.trans_le (hs.lens d))]

/-- Settles O19: the first `XORINTO` completes by its length condition, the second by the lemma of each case. -/
theorem xorintoTwiceIsTheIdentity : Obligations.XorintoTwiceIsTheIdentity := by
  intro rd ra s hs hf
  have hzeros := (bufferReturned_setCells s rd (List.replicate (s.count rd) 0x00) hs List.length_replicate).buffer
  exact ⟨fun hne hle => ⟨_, exec_xorinto_of_le rd ra s hf hle, exec_xorinto_after_xorinto rd ra s hs hf hne hle⟩,
    _, _, exec_xorinto_self rd s hf, exec_xorinto_self_after_zeros rd s hs hf, hzeros, hzeros⟩

end Sys2Proof.Proofs

/-! SUPPORT. `SETLEN`: its word on both sides of the bound on the immediate, and its completion
(42_buffer_management.md). -/

namespace Sys2Proof.Machine

/-- Over the bound an encoded immediate is read back in full, so nothing is clamped or truncated on the way to the refusal. -/
theorem decodeRI_encodeRI_above (op : BitVec 4) (rd : Reg) (imm8 : Byte) (k : Reg → Byte → Instr)
    (h : 128 < imm8.toNat) : decodeRI (encodeRI op rd imm8) k = .illegal .immediateAboveCapacity := by
  have hw := toNat_encodeRI op rd imm8
  have himm := imm8.isLt
  exact decodeRI_of_imm_above _ k (by omega) (by omega)

theorem exec_setlen_running (rd : Reg) (imm8 : Byte) (s : State) (hf : s.fault = false) :
    exec (.setlen rd imm8) s = .next (s.setLen rd imm8) := by
  rw [exec, execSetlen, State.issueEffect_running s _ hf]

end Sys2Proof.Machine

/-! SUPPORT. The statements about buffer management (42_buffer_management.md), settled. -/

namespace Sys2Proof.Proofs

open Sys2Proof.Machine Sys2Proof.Statements

theorem decode_riWord (rd : Reg) (imm8 : Byte) (h : imm8.toNat ≤ 128) :
    decode (riWord rd imm8) = .command (.setlen rd imm8) :=
  encode_setlen_eq_riWord rd imm8 ▸ decode_encode (.setlen rd imm8) (decide_eq_true h)

theorem decode_riWord_above (rd : Reg) (imm8 : Byte) (h : 128 < imm8.toNat) :
    decode (riWord rd imm8) = .illegal .immediateAboveCapacity := by
  rw [← encode_setlen_eq_riWord]
  exact (decode_of_setlen_opcode (encodeRI_opcode 6 rd imm8)).trans (decodeRI_encodeRI_above 6 rd imm8 _ h)

/-- Settles O14: the completed command is one `setLen`, whose rules of the state say what it leaves. -/
theorem setlenWritesOneLength : Obligations.SetlenWritesOneLength := by
  intro rd imm8 s himm hf
  have hcells : CellsKept s (s.setLen rd imm8) := fun a => by rw [State.setLen_mem]
  exact ⟨decode_riWord rd imm8 himm, _, exec_setlen_running rd imm8 s hf, State.len_setLen_same s rd imm8,
    fun k hk => State.len_setLen_other s rd k imm8 hk, hcells, State.setLen_carry s rd imm8,
    ⟨State.setLen_fault s rd imm8, State.setLen_cause s rd imm8⟩,
    ⟨State.setLen_inputs s rd imm8, State.setLen_readData s rd imm8⟩⟩

/-- Settles O15: above the bound the word is illegal and its issue records the fault alone; at the bound it is the command. -/
theorem setlenAboveCapacityIsIllegal : Obligations.SetlenAboveCapacityIsIllegal := by
  intro rd imm8 s hf
  refine ⟨fun himm => ?_, s.setLen rd 128, ?_, (s.setLen_fault rd 128).trans hf, s.len_setLen_same rd 128⟩
  · rw [issue_illegal _ _ s (decode_riWord_above rd imm8 himm)]
    exact State.issueEffect_running s _ hf
  · rw [issue_command _ _ s (decode_riWord rd 128 le_rfl)]
    exact exec_setlen_running rd 128 s hf

end Sys2Proof.Proofs

/-! SUPPORT. What a running core does with a condition that faults, and what an edge does while `FAULT` = 1
(60_exceptions.md). -/

namespace Sys2Proof.Machine

/-! ### A result that faults exactly on given conditions -/

/-- From `s` the result is a running state where no cause's condition `p` holds, and else the fault entry with the one cause
whose condition holds (60_exceptions.md R150, R158). -/
inductive FaultsExactlyOn (s : State) (p : Cause → Prop) : Result → Prop where
  | completes (t : State) (ht : t.fault = false) (hp : ∀ c, ¬ p c) : FaultsExactlyOn s p (.next t)
  | raises (c : Cause) (hp : ∀ d, p d ↔ d = c) : FaultsExactlyOn s p (.next (s.raiseFault c))

namespace FaultsExactlyOn

variable {s : State} {p : Cause → Prop} {r : Result}

/-- One condition `q` is checked for one cause, and the effect happens where it does not hold. -/
theorem of_condition {c : Cause} {q : Prop} {t : State} (hp : ∀ d, p d ↔ d = c ∧ q)
    (hraise : q → r = .next (s.raiseFault c)) (hcomplete : ¬ q → r = .next t) (ht : t.fault = false) :
    FaultsExactlyOn s p r := by
  by_cases hq : q
  · rw [hraise hq]
    exact .raises c fun d => by simp [hp, hq]
  · rw [hcomplete hq]
    exact .completes t ht fun d => by simp [hp, hq]

theorem exists_next (h : FaultsExactlyOn s p r) : ∃ t, r = .next t ∧ ∀ c, (t.fault = true ∧ t.cause = c) ↔ p c := by
  cases h with
  | completes t ht hp => exact ⟨t, rfl, fun c => by simp [ht, hp]⟩
  | raises c hp => exact ⟨_, rfl, fun d => by simp [hp, eq_comm]⟩

theorem eq_raiseFault {t : State} (h : FaultsExactlyOn s p (.next t)) (ht : t.fault = true) :
    t = s.raiseFault t.cause := by
  cases h with
  | completes _ hf _ => rw [hf] at ht; cases ht
  | raises c _ => rfl

end FaultsExactlyOn

theorem exec_xorinto_of_lt (rd ra : Reg) (s : State) (hf : s.fault = false) (h : s.count rd < s.count ra) :
    exec (.xorinto rd ra) s = .next (s.raiseFault .lengthPrecondition) := by
  rw [exec, execXorinto, State.issueEffect_running s _ hf, if_pos h]

/-! ### Edges while `FAULT` = 1, and edges that do nothing -/

/-- While `FAULT` = 1 an edge is a reset, or its host access alone: a command of it is discarded. -/
theorem transfer_faulted_cases (e : Edge) (s t : State) (hf : s.fault = true) (h : transfer e s = .next t) :
    (e.rst = true ∧ t = s.resetEdge) ∨ (e.rst = false ∧ t = s.accessIfAny e.access) := by
  rcases transfer_cases e s t h with hr | ⟨hr, -, ht⟩ | ⟨w, hr, -, hw⟩
  · exact .inl hr
  · exact .inr ⟨hr, ht⟩
  · rw [issue_faulted w _ ((s.accessIfAny_fault e.access).trans hf)] at hw
    cases hw
    exact .inr ⟨hr, rfl⟩

theorem State.architectural_accessIfAny (s : State) (a : Option Access) (h : ∀ b v, a ≠ some (.write b v)) :
    (s.accessIfAny a).architectural = s.architectural := by
  match a with
  | none => rfl
  | some (.read b) => exact s.architectural_access_read b
  | some (.write b v) => exact absurd rfl (h b v)

/-! ### The host port and `FAULT` (60_exceptions.md R155) -/

/-- A host write does not look at `FAULT`: it does the same under the other value. -/
theorem State.hostWrite_withFault (s : State) (f : Bool) (a : HostAddr) (v : Byte) :
    ({ s with fault := f } : State).hostWrite a v = { s.hostWrite a v with fault := f } := by
  rcases Nat.lt_or_ge a.toNat 0x200 with ha | ha
  · rw [State.hostWrite_of_lt _ a v ha, State.hostWrite_of_lt s a v ha]
  · rw [State.hostWrite_of_ge _ a v ha, State.hostWrite_of_ge s a v ha]

theorem State.withFault_self {s : State} {f : Bool} (h : s.fault = f) : { s with fault := f } = s := by
  subst h
  rfl

end Sys2Proof.Machine

/-! SUPPORT. The statements about faults (60_exceptions.md), settled. -/

namespace Sys2Proof.Proofs

open Sys2Proof.Machine Sys2Proof.Statements

/-! ### The conditions of the causes (60_exceptions.md R151 to R153) -/

/-- When a command raises a cause, by the statements' tables. -/
def commandFault (s : State) (i : Instr) : Cause → Prop
  | .none => False
  | .illegalCommand => False
  | .unsupportedFieldSize => sizeFault s i
  | .lengthPrecondition => lengthFault s i

/-- When an issued word raises a cause, by the statements' tables. -/
def wordFault (s : State) (w : Word) : Cause → Prop
  | .none => False
  | .illegalCommand => ∃ why, decode w = .illegal why
  | .unsupportedFieldSize => ∃ i, decode w = .command i ∧ sizeFault s i
  | .lengthPrecondition => ∃ i, decode w = .command i ∧ lengthFault s i

section Conditions

variable {s : State} {i : Instr}

theorem commandFault_iff_length (h : ¬ sizeFault s i) (c : Cause) :
    commandFault s i c ↔ c = .lengthPrecondition ∧ lengthFault s i := by
  cases c <;> simp [commandFault, h]

theorem commandFault_iff_size (h : ¬ lengthFault s i) (c : Cause) :
    commandFault s i c ↔ c = .unsupportedFieldSize ∧ sizeFault s i := by
  cases c <;> simp [commandFault, h]

theorem wordFault_of_command {w : Word} (hd : decode w = .command i) : wordFault s w = commandFault s i := by
  funext c
  cases c <;> simp [wordFault, commandFault, hd]

theorem wordFault_of_illegal {w : Word} {why : IllegalWord} (hd : decode w = .illegal why) (c : Cause) :
    wordFault s w c ↔ c = .illegalCommand := by
  cases c <;> simp [wordFault, hd]

/-- Lengths as counts of bytes are equal exactly when the length registers are. -/
theorem lengthFault_shlc_iff (rd ra : Reg) : lengthFault s (.shlc rd ra) ↔ s.len rd ≠ s.len ra :=
  not_congr BitVec.toNat_inj

theorem sizeFault_double_iff (rd ra : Reg) : sizeFault s (.double rd ra) ↔ s.count ra ∉ fieldSizes := by
  simp [sizeFault, fieldSizes]

end Conditions

/-! ### Every command and every word faults exactly on its conditions -/

theorem exec_faultsExactlyOn (i : Instr) (s : State) (hf : s.fault = false) :
    FaultsExactlyOn s (commandFault s i) (exec i s) := by
  cases i with
  | shlc rd ra =>
    exact .of_condition (commandFault_iff_length not_false)
      (fun h => exec_shlc_of_ne rd ra s hf ((lengthFault_shlc_iff rd ra).1 h))
      (fun h => exec_shlc_of_eq rd ra s hf (not_not.1 (mt (lengthFault_shlc_iff rd ra).2 h))) (by simp [hf])
  | double rd ra =>
    exact .of_condition (commandFault_iff_size not_false)
      (fun h => exec_double_of_notMem rd ra s hf ((sizeFault_double_iff rd ra).1 h))
      (fun h => exec_double_of_mem rd ra s hf (not_not.1 (mt (sizeFault_double_iff rd ra).2 h))) (by simp [hf])
  | xorinto rd ra =>
    exact .of_condition (commandFault_iff_length not_false) (exec_xorinto_of_lt rd ra s hf)
      (fun h => exec_xorinto_of_le rd ra s hf (Nat.not_lt.1 h)) (by simp [hf])
  | xorto rd ra rb =>
    exact .of_condition (commandFault_iff_length not_false) (exec_xorto_of_lt rd ra rb s hf)
      (fun h => exec_xorto_of_le rd ra rb s hf (Nat.not_lt.1 (not_or.1 h).1) (Nat.not_lt.1 (not_or.1 h).2))
      (by simp [hf])
  | xorr rd ra rb =>
    exact .of_condition (commandFault_iff_length not_false) (exec_xorr_of_lt rd ra rb s hf)
      (fun h => exec_xorr_of_le rd ra rb s hf (Nat.not_lt.1 h)) (by simp [hf])
  | setlen rd imm8 =>
    rw [exec_setlen_running rd imm8 s hf]
    refine .completes _ ((s.setLen_fault rd imm8).trans hf) fun c => ?_
    rw [commandFault_iff_length (i := .setlen rd imm8) not_false]
    exact And.right

theorem issue_faultsExactlyOn (w : Word) (s : State) (hf : s.fault = false) :
    FaultsExactlyOn s (wordFault s w) (issue w s) := by
  cases hd : decode w with
  | command i =>
    rw [issue_command w i s hd, wordFault_of_command hd]
    exact exec_faultsExactlyOn i s hf
  | illegal why =>
    rw [issue_illegal w why s hd, execIllegal, State.issueEffect_running s _ hf]
    exact .raises _ (wordFault_of_illegal hd)

/-- Settles O28: the word faults exactly on the conditions of the tables, and cause `none` has no condition. -/
theorem faultsAreExactlyTheThreeCauses : Obligations.FaultsAreExactlyTheThreeCauses := by
  intro w s hf
  obtain ⟨t, ht, hiff⟩ := (issue_faultsExactlyOn w s hf).exists_next
  exact ⟨t, ht, hiff .illegalCommand, hiff .unsupportedFieldSize, hiff .lengthPrecondition,
    fun hft hc => (hiff .none).1 ⟨hft, hc⟩⟩

/-- Settles O29: the one way to a faulted state is the fault entry. -/
theorem faultingCommandWritesNothingElse : Obligations.FaultingCommandWritesNothingElse := by
  intro w s t hf h ht
  have hfaults := issue_faultsExactlyOn w s hf
  rw [h] at hfaults
  exact hfaults.eq_raiseFault ht

/-! ### The fault state and the ways out of it (60_exceptions.md R160, R161) -/

theorem allReset_resetEdge (s : State) : AllReset s.resetEdge :=
  ⟨fun k i _ => s.cell_resetEdge k i, s.len_resetEdge, rfl, rfl, rfl⟩

/-- Settles O31: while `FAULT` = 1 an edge without reset is its host access alone, which writes neither `FAULT` nor `CAUSE`;
and an access that is no write leaves every architectural register. -/
theorem onlyResetLeavesTheFaultState : Obligations.OnlyResetLeavesTheFaultState := by
  refine ⟨fun s t hst hf => ?_, fun s t hst hquiet => ?_⟩
  · rcases step_cases s t hst with ⟨-, rfl⟩ | ⟨e, rest, hin, he⟩
    · exact .inl ⟨hf, rfl⟩
    · rcases transfer_faulted_cases e (s.takeEdge rest) t hf he with ⟨hr, rfl⟩ | ⟨-, rfl⟩
      · exact .inr ⟨e, rest, hin, hr, allReset_resetEdge _⟩
      · exact .inl (by simp [hf])
  · rcases step_cases s t hst with ⟨-, rfl⟩ | ⟨e, rest, hin, he⟩
    · exact s.architectural_takeEdge []
    · obtain ⟨hr, hc, hnowrite⟩ := hquiet e rest hin
      rw [transfer_no_command e _ hr hc] at he
      cases he
      rw [State.architectural_accessIfAny _ _ hnowrite, State.architectural_takeEdge]

/-- Settles O30: every word is discarded, and the host port does not look at `FAULT`. -/
theorem faultedCoreDiscardsCommands : Obligations.FaultedCoreDiscardsCommands := by
  intro s hf
  refine ⟨fun w => issue_faulted w s hf, fun a ha => ?_, fun a v => ?_, fun hgood => ?_⟩
  · rw [State.hostRead_of_lt s a ha, State.hostRead_of_lt _ a ha]
  · have hkept : (s.hostWrite a v).fault = true := (s.accessIfAny_fault (some (.write a v))).trans hf
    rw [State.hostWrite_withFault s false]
    exact (State.withFault_self hkept).symm
  · rw [State.goodEnd, hf] at hgood
    cases hgood

end Sys2Proof.Proofs

/-! SUPPORT. One clock edge at the pins, kind by kind, and a command counted down to its completion
(70_reset_and_hazards.md). -/

namespace Sys2Proof.Machine

/-! ### One clock edge, kind by kind (70_reset_and_hazards.md R181, R186) -/

theorem PinState.idle_iff (p : PinState) : p.idle = true ↔ p.inFlight = none := Option.isNone_iff_eq_none

theorem pinEdge_rst (p : PinState) (i : PinInputs) (h : i.rst = true) :
    pinEdge p i = { arch := p.arch.resetEdge, inFlight := none } := if_pos h

theorem pinEdge_executing (f : InFlight) (s : State) (i : PinInputs) (h : i.rst = false) :
    pinEdge { arch := s, inFlight := some f } i = continueCommand f s := by
  simp [pinEdge, h]

theorem pinEdge_command (p : PinState) (i : PinInputs) (hp : p.idle = true) (hr : i.rst = false)
    (hv : i.cmdValid = true) : pinEdge p i = startCommand i.cmd (p.arch.accessIfAny i.request) := by
  simp [pinEdge, hr, p.idle_iff.1 hp, PinInputs.offered, hv]

/-- An idle core without a request keeps its state. -/
theorem pinEdge_quiet (p : PinState) (i : PinInputs) (hp : p.idle = true) (hr : i.rst = false)
    (hv : i.cmdValid = false) (hq : i.hReq = false) : pinEdge p i = p := by
  obtain ⟨s, f⟩ := p
  obtain rfl : f = none := (PinState.idle_iff _).1 hp
  simp [pinEdge, hr, PinInputs.offered, hv, PinInputs.request, hq, State.accessIfAny]

theorem PinState.transferred_rst (p : PinState) (i : PinInputs) (h : i.rst = true) :
    p.transferred i = some { rst := true, access := none, command := none } := if_pos h

theorem PinState.transferred_busy (p : PinState) (i : PinInputs) (hp : p.idle = false) (hr : i.rst = false) :
    p.transferred i = none := by
  simp [PinState.transferred, hr, hp]

/-! ### Reset -/

theorem State.architectural_resetEdge (s : State) : s.resetEdge.architectural = State.reset := rfl

theorem State.resetEdge_resetEdge (s : State) : s.resetEdge.resetEdge = s.resetEdge := rfl

/-- A second edge with reset changes nothing. -/
theorem pinEdge_rst_rst (p : PinState) (i x : PinInputs) (hi : i.rst = true) (hx : x.rst = true) :
    pinEdge (pinEdge p i) x = pinEdge p i := by
  rw [pinEdge_rst _ x hx, pinEdge_rst p i hi, State.resetEdge_resetEdge]

/-- Edges that each leave the pins as they are do so one after the other. -/
theorem pinRun_eq_self (p : PinState) (is : List PinInputs) (h : ∀ x ∈ is, pinEdge p x = p) : pinRun p is = p := by
  induction is with
  | nil => rfl
  | cons x is ih =>
    obtain ⟨hx, his⟩ := List.forall_mem_cons.1 h
    rw [pinRun, hx, ih his]

theorem State.hostRead_reset (a : HostAddr) : State.reset.hostRead a = 0x00 := by
  rcases Nat.lt_or_ge a.toNat 0x200 with ha | ha
  · rw [State.hostRead_of_lt _ a ha]
    rfl
  · rw [State.hostRead_of_ge _ a ha]
    split_ifs <;> rfl

/-! ### A command counted down (70_reset_and_hazards.md R189) -/

/-- The issue of a word always answers, and a completed command is what it answers. -/
theorem issue_eq_commit (w : Word) (s : State) : issue w s = .next (s.commit w) := by
  obtain ⟨t, ht⟩ := exists_issue_eq_next w s
  rw [ht, State.commit_eq s t w ht]

/-- The core once `w` is issued in `s`, with `n` busy edges still to come: at 0 the command is complete. -/
def PinState.busyFor (w : Word) (s : State) : Nat → PinState
  | 0 => { arch := s.commit w, inFlight := none }
  | n + 1 => { arch := s, inFlight := some { word := w, more := n } }

theorem PinState.idle_busyFor_zero (w : Word) (s : State) : (PinState.busyFor w s 0).idle = true := rfl

theorem PinState.idle_busyFor_succ (w : Word) (s : State) (n : Nat) :
    (PinState.busyFor w s (n + 1)).idle = false := rfl

theorem startCommand_eq_busyFor (w : Word) (s : State) (n : Nat) (h : latency w s = n + 1) :
    startCommand w s = PinState.busyFor w s n := by
  rw [startCommand, h, Nat.add_sub_cancel]
  cases n <;> rfl

theorem continueCommand_eq_busyFor (w : Word) (s : State) (n : Nat) :
    continueCommand { word := w, more := n } s = PinState.busyFor w s n := by
  cases n <;> rfl

theorem pinEdge_busyFor_succ (w : Word) (s : State) (n : Nat) (i : PinInputs) (h : i.rst = false) :
    pinEdge (PinState.busyFor w s (n + 1)) i = PinState.busyFor w s n := by
  rw [PinState.busyFor, pinEdge_executing _ s i h, continueCommand_eq_busyFor]

/-- Edges without reset count a command down by their number. -/
theorem pinRun_busyFor (w : Word) (s : State) (n : Nat) (is : List PinInputs) (h : ∀ x ∈ is, x.rst = false) :
    pinRun (PinState.busyFor w s (n + is.length)) is = PinState.busyFor w s n := by
  induction is with
  | nil => rfl
  | cons x is ih =>
    obtain ⟨hx, his⟩ := List.forall_mem_cons.1 h
    rw [List.length_cons, ← Nat.add_assoc, pinRun, pinEdge_busyFor_succ w s _ x hx, ih his]

end Sys2Proof.Machine

/-! SUPPORT. The statements about reset and the time a command takes (70_reset_and_hazards.md), settled. -/

namespace Sys2Proof.Proofs

open Sys2Proof.Machine Sys2Proof.Statements

/-- Settles O43: at the pins and in one step the edge is `resetEdge`, which leaves every register at its reset value. -/
theorem resetEdgeClearsEverything : Obligations.ResetEdgeClearsEverything := by
  refine ⟨fun p i hr => ?_, fun s e rest hin hr => ⟨_, ?_, allReset_resetEdge (s.takeEdge rest)⟩⟩
  · rw [pinEdge_rst p i hr]
    exact ⟨allReset_resetEdge p.arch, rfl⟩
  · rw [step_cons s e rest hin, transfer_rst e _ hr]

/-- Settles O44: from either state the edge leaves the reset values and nothing in execution, and a further such edge finds
nothing left to change. -/
theorem resetWinsOverEverything : Obligations.ResetWinsOverEverything := by
  intro p q i j is hi hj his
  refine ⟨p.transferred_rst i hi, ?_, ?_, pinRun_eq_self _ is fun x hx => pinEdge_rst_rst p i x hi (his x hx)⟩
  · rw [pinEdge_rst p i hi, pinEdge_rst q j hj, State.architectural_resetEdge, State.architectural_resetEdge]
  · rw [pinEdge_rst p i hi]

/-- Settles O45: the outputs and the host port in the one reset state, and an idle core without a request. -/
theorem readyAndZeroAfterReset : Obligations.ReadyAndZeroAfterReset :=
  ⟨fun _ _ => ⟨rfl, rfl, rfl, rfl⟩, State.hostRead_reset, fun i hr hv hq => pinEdge_quiet PinState.reset i rfl hr hv hq⟩

/-- While a command executes the core is not ready, shows the fault state from before its completion, and takes nothing. -/
theorem outputs_busyFor_succ (w : Word) (s : State) (n : Nat) (x : PinInputs) (hx : x.rst = false) :
    ((PinState.busyFor w s (n + 1)).outputs x).cmdReady = false ∧
    ((PinState.busyFor w s (n + 1)).outputs x).hReady = false ∧
    ((PinState.busyFor w s (n + 1)).outputs x).busy = true ∧
    ((PinState.busyFor w s (n + 1)).outputs x).fault = s.fault ∧
    (PinState.busyFor w s (n + 1)).transferred x = none :=
  ⟨rfl, rfl, rfl, rfl, PinState.transferred_busy _ x (PinState.idle_busyFor_succ w s n) hx⟩

/-- Settles O46: the issue leaves `LAT - 1` busy edges to come and each edge takes one away; after the last the core holds
what the issue of the word answers. -/
theorem commandKeepsTheCoreBusyForItsLatency : Obligations.CommandKeepsTheCoreBusyForItsLatency := by
  intro p i is hp hr hv his hlat _
  have hissue : pinEdge p i = PinState.busyFor i.cmd (p.arch.accessIfAny i.request) is.length := by
    rw [pinEdge_command p i hp hr hv, startCommand_eq_busyFor _ _ _ hlat.symm]
  have hend := pinRun_busyFor i.cmd (p.arch.accessIfAny i.request) 0 is his
  rw [Nat.zero_add] at hend
  rw [hissue, hend]
  refine ⟨fun m x hm hx => ?_, PinState.idle_busyFor_zero _ _, issue_eq_commit _ _⟩
  obtain ⟨n, hn⟩ : ∃ n, is.length = n + 1 + m := ⟨is.length - m - 1, by omega⟩
  have hbusy := pinRun_busyFor i.cmd (p.arch.accessIfAny i.request) (n + 1) (is.take m)
    fun y hy => his y (List.mem_of_mem_take hy)
  rw [List.length_take_of_le hm.le, ← hn] at hbusy
  rw [hbusy, ← p.arch.accessIfAny_fault i.request]
  exact outputs_busyFor_succ _ _ n x hx

end Sys2Proof.Proofs

/-! SUPPORT. Two states with the same lengths and fault state, and the results of one word in both: said once for every
command, in the form of the updates the results are made of. -/

namespace Sys2Proof.Machine

/-! ### One update in two states -/

namespace SamePublic

variable {s t : State}

theorem count (h : SamePublic s t) (k : Reg) : t.count k = s.count k := congrArg BitVec.toNat (h.1 k)

theorem setCells (h : SamePublic s t) (k : Reg) (i : Nat) (bs cs : List Byte) :
    SamePublic (s.setCells k i bs) (t.setCells k i cs) := by
  simpa [SamePublic, LensKept, FaultKept] using h

theorem setLen (h : SamePublic s t) (k : Reg) (n : Byte) : SamePublic (s.setLen k n) (t.setLen k n) := by
  obtain ⟨hlens, hfault⟩ := h
  refine ⟨fun j => ?_, by simpa [FaultKept] using hfault⟩
  rw [State.len_setLen, State.len_setLen, hlens j]

theorem setCarry (h : SamePublic s t) (c d : Bool) : SamePublic (s.setCarry c) (t.setCarry d) := h

theorem raiseFault (h : SamePublic s t) (c : Cause) : SamePublic (s.raiseFault c) (t.raiseFault c) :=
  ⟨h.1, rfl, rfl⟩

/-- Host accesses write neither a length nor the fault state, whatever they are. -/
theorem accessIfAny (h : SamePublic s t) (a b : Option Access) : SamePublic (s.accessIfAny a) (t.accessIfAny b) := by
  simpa [SamePublic, LensKept, FaultKept] using h

end SamePublic

/-- Every byte of every buffer held is the same; cells at and above a length may differ. -/
def SameBuffers (s s' : State) : Prop := ∀ k j, j < s.count k → s'.cell k j = s.cell k j

theorem SameBuffers.slice {s s' : State} (h : SameBuffers s s') (k : Reg) (n : Nat) (hn : n ≤ s.count k) :
    s'.slice k n = s.slice k n :=
  List.map_congr_left fun j hj => h k j ((List.mem_range.1 hj).trans_le hn)

theorem SameBuffers.buffer {s s' : State} (h : SameBuffers s s') (hp : SamePublic s s') (k : Reg) :
    s'.buffer k = s.buffer k := by
  rw [State.buffer, hp.count k, h.slice k _ le_rfl]
  rfl

/-! ### One word in two states -/

/-- What the same word can do to two states: both are left alone, both take the same fault, or in both the same register gets
bytes, then perhaps its length and `CARRY`. What is written is the same where the buffers held are. -/
inductive InStep (s s' : State) : State → State → Prop where
  | discarded : InStep s s' s s'
  | raises (c : Cause) : InStep s s' (s.raiseFault c) (s'.raiseFault c)
  | writes (rd : Reg) (bs bs' : List Byte) (hcap : s.Legal → bs.length ≤ Config.capacity)
      (hbytes : SameBuffers s s' → bs' = bs) : InStep s s' (s.setCells rd 0 bs) (s'.setCells rd 0 bs')
  | setLen (t t' : State) (h : InStep s s' t t') (rd : Reg) (n : Byte) : InStep s s' (t.setLen rd n) (t'.setLen rd n)
  | setCarry (t t' : State) (h : InStep s s' t t') (c c' : Bool) (hc : SameBuffers s s' → c' = c) :
      InStep s s' (t.setCarry c) (t'.setCarry c')

section Pairs

variable {R : State → State → Prop} {s s' t t' : State}

/-- With the same fault state a command is discarded in both states or has its effect in both. -/
theorem State.issueEffect_rel {f f' : State → State} (hfault : s'.fault = s.fault) (hdiscarded : R s s')
    (heffect : R (f s) (f' s')) (h : s.issueEffect f = .next t) (h' : s'.issueEffect f' = .next t') : R t t' := by
  cases hs : s.fault with
  | true =>
    rw [State.issueEffect_faulted s f hs] at h
    rw [State.issueEffect_faulted s' f' (hfault.trans hs)] at h'
    cases h; cases h'
    exact hdiscarded
  | false =>
    rw [State.issueEffect_running s f hs] at h
    rw [State.issueEffect_running s' f' (hfault.trans hs)] at h'
    cases h; cases h'
    exact heffect

/-- A condition that does not tell two states apart sends both the same way. -/
theorem ite_rel {c d : Prop} [Decidable c] [Decidable d] (hcd : d ↔ c) (hpos : c → R s s') (hneg : ¬ c → R t t') :
    R (if c then s else t) (if d then s' else t') := by
  by_cases h : c
  · rw [if_pos h, if_pos (hcd.2 h)]
    exact hpos h
  · rw [if_neg h, if_neg (mt hcd.1 h)]
    exact hneg h

/-- Every command's condition is one on lengths, and every byte it writes comes from the buffers held. -/
theorem exec_inStep (i : Instr) (h : SamePublic s s') (ht : exec i s = .next t) (ht' : exec i s' = .next t') :
    InStep s s' t t' := by
  have hfault : s'.fault = s.fault := h.2.1
  cases i with
  | shlc rd ra =>
    rw [exec, execShlc] at ht ht'
    refine State.issueEffect_rel hfault .discarded ?_ ht ht'
    refine ite_rel (by rw [h.1, h.1]) (fun _ => ?_) fun _ => .raises _
    refine .setCarry _ _ (.writes rd _ _ (fun hs => ?_) fun hb => ?_) _ _ fun hb => ?_
    · rw [length_shl1, State.length_buffer]; exact hs.lens ra
    · rw [hb.buffer h]
    · rw [hb.buffer h]
  | double rd ra =>
    rw [exec, execDouble] at ht ht'
    refine State.issueEffect_rel hfault .discarded ?_ ht ht'
    refine ite_rel (by rw [h.count]) (fun _ => ?_) fun _ => .raises _
    rw [h.1 ra]
    refine .setLen _ _ (.writes rd _ _ (fun hs => ?_) fun hb => ?_) _ _
    · rw [length_doubled, State.length_buffer]; exact hs.lens ra
    · rw [hb.buffer h]
  | xorinto rd ra =>
    rw [exec, execXorinto] at ht ht'
    refine State.issueEffect_rel hfault .discarded ?_ ht ht'
    refine ite_rel (by rw [h.count, h.count]) (fun _ => .raises _) fun hle => ?_
    refine .writes rd _ _ (fun hs => ?_) fun hb => ?_
    · rw [length_xorBytes_slice]; exact hs.lens ra
    · rw [h.count, hb.slice rd _ (Nat.not_lt.1 hle), hb.slice ra _ le_rfl]
  | xorto rd ra rb =>
    rw [exec, execXorto] at ht ht'
    refine State.issueEffect_rel hfault .discarded ?_ ht ht'
    refine ite_rel (by rw [h.count, h.count, h.count]) (fun _ => .raises _) fun hle => ?_
    obtain ⟨-, hra⟩ := not_or.1 hle
    refine .writes rd _ _ (fun hs => ?_) fun hb => ?_
    · rw [length_xorBytes_slice]; exact hs.lens rb
    · rw [h.count, hb.slice ra _ (Nat.not_lt.1 hra), hb.slice rb _ le_rfl]
  | xorr rd ra rb =>
    rw [exec, execXorr] at ht ht'
    refine State.issueEffect_rel hfault .discarded ?_ ht ht'
    refine ite_rel (by rw [h.count, h.count]) (fun _ => .raises _) fun _ => ?_
    rw [h.1 ra]
    refine .setLen _ _ (.writes rd _ _ (fun hs => ?_) fun hb => ?_) _ _
    · rw [length_xorAt, State.length_buffer]; exact hs.lens ra
    · rw [h.count, h.count, hb.buffer h, hb.buffer h]
  | setlen rd imm8 =>
    rw [exec, execSetlen] at ht ht'
    exact State.issueEffect_rel hfault .discarded (.setLen _ _ .discarded rd imm8) ht ht'

theorem issue_inStep (w : Word) (h : SamePublic s s') (ht : issue w s = .next t) (ht' : issue w s' = .next t') :
    InStep s s' t t' := by
  cases hd : decode w with
  | command i =>
    rw [issue_command w i _ hd] at ht ht'
    exact exec_inStep i h ht ht'
  | illegal why =>
    rw [issue_illegal w why _ hd] at ht ht'
    exact State.issueEffect_rel h.2.1 .discarded (.raises _) ht ht'

end Pairs

namespace InStep

variable {s s' t t' : State}

theorem samePublic (h : InStep s s' t t') (hp : SamePublic s s') : SamePublic t t' := by
  induction h with
  | discarded => exact hp
  | raises c => exact hp.raiseFault c
  | writes rd bs bs' => exact hp.setCells rd 0 bs bs'
  | setLen t t' _ rd n ih => exact ih.setLen rd n
  | setCarry t t' _ c c' _ ih => exact ih.setCarry c c'

theorem carry_eq (h : InStep s s' t t') (hb : SameBuffers s s') (hc : s.carry = s'.carry) : t.carry = t'.carry := by
  induction h with
  | discarded => exact hc
  | raises c => exact hc
  | writes rd bs bs' => rwa [State.setCells_carry, State.setCells_carry]
  | setLen t t' _ rd n ih => rwa [State.setLen_carry, State.setLen_carry]
  | setCarry t t' _ c c' heq ih => exact (heq hb).symm

/-- A cell is written with the same byte in both states, or in neither. -/
theorem cell_eq_or_kept (h : InStep s s' t t') (hs : s.Legal) (hs' : s'.Legal) (hb : SameBuffers s s') (k : Reg) (j : Nat) :
    t.cell k j = t'.cell k j ∨ (t.cell k j = s.cell k j ∧ t'.cell k j = s'.cell k j) := by
  induction h with
  | discarded => exact .inr ⟨rfl, rfl⟩
  | raises c => exact .inr ⟨rfl, rfl⟩
  | writes rd bs bs' hcap hbytes =>
    have hle : 0 + bs.length ≤ Config.capacity := by rw [Nat.zero_add]; exact hcap hs
    rw [hbytes hb, s.cell_setCells rd k 0 j bs hs.cells hle, s'.cell_setCells rd k 0 j bs hs'.cells hle, Nat.sub_zero]
    split
    · rcases Nat.lt_or_ge j bs.length with hin | hout
      · exact .inl (by rw [List.getD_eq_getElem _ _ hin, List.getD_eq_getElem _ _ hin])
      · exact .inr ⟨List.getD_eq_default _ _ hout, List.getD_eq_default _ _ hout⟩
    · exact .inr ⟨rfl, rfl⟩
  | setLen t t' _ rd n ih => rwa [State.cell_setLen, State.cell_setLen]
  | setCarry t t' _ c c' _ ih => exact ih

end InStep

/-! ### One clock edge in two states -/

/-- Two states at the pins show the same handshake signals and will take the same time. -/
structure SameTiming (p q : PinState) : Prop where
  arch : SamePublic p.arch q.arch
  inFlight : q.inFlight = p.inFlight

theorem SamePublic.commit {s t : State} (h : SamePublic s t) (w : Word) : SamePublic (s.commit w) (t.commit w) :=
  (issue_inStep w h (issue_eq_commit w s) (issue_eq_commit w t)).samePublic h

theorem SamePublic.operandLens {s t : State} (h : SamePublic s t) (d : Decoded) :
    Machine.operandLens t d = Machine.operandLens s d := by
  obtain ⟨hlens, -⟩ := h
  cases d with
  | illegal why => rfl
  | command i => cases i <;> simp only [Machine.operandLens, hlens _]

theorem SamePublic.latency {s t : State} (h : SamePublic s t) (w : Word) : Machine.latency w t = Machine.latency w s := by
  rw [Machine.latency, h.operandLens, Machine.latency]

theorem SameTiming.busyFor {s t : State} (h : SamePublic s t) (w : Word) (n : Nat) :
    SameTiming (PinState.busyFor w s n) (PinState.busyFor w t n) := by
  cases n with
  | zero => exact ⟨h.commit w, rfl⟩
  | succ n => exact ⟨h, rfl⟩

theorem SameTiming.startCommand {s t : State} (h : SamePublic s t) (w : Word) :
    SameTiming (Machine.startCommand w s) (Machine.startCommand w t) := by
  obtain ⟨n, hn⟩ : ∃ n, Machine.latency w s = n + 1 := ⟨_, Nat.add_comm 1 _⟩
  rw [startCommand_eq_busyFor w s n hn, startCommand_eq_busyFor w t n ((h.latency w).trans hn)]
  exact SameTiming.busyFor h w n

/-- An idle core takes the command offered in the state the access of the edge leaves. -/
theorem pinEdge_offered (s : State) (i : PinInputs) (w : Word) (hr : i.rst = false) (hw : i.offered = some w) :
    pinEdge { arch := s, inFlight := none } i = startCommand w (s.accessIfAny i.request) := by
  simp [pinEdge, hr, hw]

theorem pinEdge_not_offered (s : State) (i : PinInputs) (hr : i.rst = false) (hw : i.offered = none) :
    pinEdge { arch := s, inFlight := none } i = { arch := s.accessIfAny i.request, inFlight := none } := by
  simp [pinEdge, hr, hw]

/-- Inputs that are the same but for the access keep two states in time. -/
theorem SameTiming.pinEdge {p q : PinState} (h : SameTiming p q) (i j : PinInputs) (hrst : j.rst = i.rst)
    (hoffered : j.offered = i.offered) : SameTiming (Machine.pinEdge p i) (Machine.pinEdge q j) := by
  obtain ⟨s, f⟩ := p
  obtain ⟨t, g⟩ := q
  obtain ⟨harch, rfl⟩ : SamePublic s t ∧ g = f := ⟨h.arch, h.inFlight⟩
  have haccess := harch.accessIfAny i.request j.request
  cases hr : i.rst with
  | true =>
    rw [pinEdge_rst _ i hr, pinEdge_rst _ j (hrst.trans hr)]
    exact ⟨⟨fun k => by rw [State.len_resetEdge, State.len_resetEdge], rfl, rfl⟩, rfl⟩
  | false =>
    cases g with
    | some f =>
      rw [pinEdge_executing f s i hr, pinEdge_executing f t j (hrst.trans hr)]
      exact SameTiming.busyFor harch f.word f.more
    | none =>
      cases hw : i.offered with
      | some w =>
        rw [pinEdge_offered s i w hr hw, pinEdge_offered t j w (hrst.trans hr) (hoffered.trans hw)]
        exact SameTiming.startCommand haccess w
      | none =>
        rw [pinEdge_not_offered s i hr hw, pinEdge_not_offered t j (hrst.trans hr) (hoffered.trans hw)]
        exact ⟨haccess, rfl⟩

end Sys2Proof.Machine

/-! SUPPORT. The statements about what commands and the handshake do not depend on, settled. -/

namespace Sys2Proof.Proofs

open Sys2Proof.Machine Sys2Proof.Statements

/-- Settles O41: the two results are made of the same updates of lengths and of the fault state. -/
theorem controlDependsOnNoByte : Obligations.ControlDependsOnNoByte :=
  fun w _ _ _ _ hp ht ht' => (issue_inStep w hp ht ht').samePublic hp

/-- Settles O37: all that is written comes from the buffers held, which agree. -/
theorem staleCellsReachNoResult : Obligations.StaleCellsReachNoResult := by
  intro i s s' t t' hs hs' hp hb ht ht'
  have h := exec_inStep i hp ht ht'
  exact ⟨h.samePublic hp, h.carry_eq hb, fun k j _ => h.cell_eq_or_kept hs hs' hb k j⟩

/-- The handshake signals of a cycle come from the fault bit and from whether a command is in execution. -/
theorem handshake_outputs_eq {p q : PinState} (h : SameTiming p q) (i j : PinInputs) :
    handshake (p.outputs i) = handshake (q.outputs j) := by
  obtain ⟨⟨-, hfault, -⟩, hflight⟩ := h
  have hidle : q.idle = p.idle := congrArg Option.isNone hflight
  simp only [handshake, PinState.outputs, hidle, hfault]

/-- In time at the start, two runs stay in time: by induction over the cycles, with `SameTiming` as what every edge keeps. -/
theorem handshake_pinTrace_eq {p q : PinState} {is js : List PinInputs} (h : SameTiming p q)
    (his : List.Forall₂ SameButData is js) : (pinTrace p is).map handshake = (pinTrace q js).map handshake := by
  induction his generalizing p q with
  | nil => rfl
  | @cons i j is js hij _ ih =>
    obtain ⟨d, rfl⟩ : ∃ d, j = { i with hWdata := d } := ⟨_, hij.symm⟩
    have hnext := h.pinEdge i { i with hWdata := d } rfl rfl
    rw [pinTrace, pinTrace, List.map_cons, List.map_cons, handshake_outputs_eq h i, ih hnext]

/-- Settles O42. The host's duty is not needed for it: the functions at the pins are total. -/
theorem handshakeDependsOnNoByte : Obligations.HandshakeDependsOnNoByte :=
  fun _ _ _ _ harch hflight his _ _ => handshake_pinTrace_eq ⟨harch, hflight.symm⟩ his

end Sys2Proof.Proofs

/-! SUPPORT. Every edge has an outcome, and no architectural state depends on the model's own two fields: used to relate the
pins to the transfers. -/

namespace Sys2Proof.Machine

theorem exists_transfer_eq_next (e : Edge) (s : State) : ∃ t, transfer e s = .next t := by
  cases hr : e.rst with
  | true => exact ⟨_, transfer_rst e s hr⟩
  | false =>
    cases hc : e.command with
    | none => exact ⟨_, transfer_no_command e s hr hc⟩
    | some w =>
      rw [transfer_command e s w hr hc]
      exact exists_issue_eq_next w _

theorem exists_step_eq_next (s : State) : ∃ t, step s = .next t := by
  cases hin : s.inputs with
  | nil => exact ⟨_, step_nil s hin⟩
  | cons e rest =>
    rw [step_cons s e rest hin]
    exact exists_transfer_eq_next e _

/-- A run begins with its first step. -/
theorem run_succ (n : Nat) {s u : State} (h : step s = .next u) :
    Host.Core.run core (n + 1) s = Host.Core.run core n u := by
  have hstep : core.step s = .next u := h
  simp only [Host.Core.run, hstep]

/-- An edge leaves the host's later edges as they are (10_state.md R34). -/
theorem transfer_keeps_inputs (e : Edge) (s t : State) (h : transfer e s = .next t) : t.inputs = s.inputs := by
  rcases transfer_cases e s t h with ⟨-, rfl⟩ | ⟨-, -, rfl⟩ | ⟨w, -, -, hw⟩
  · rfl
  · exact s.accessIfAny_inputs e.access
  · exact (issue_keeps_hostSide w _ t hw).1.trans (s.accessIfAny_inputs e.access)

/-! ### Architectural state alone decides what architectural state follows -/

/-- An update that passes over the model's own two fields gives states that agree architecturally the same result. -/
theorem architectural_congr {f : State → State}
    (hf : ∀ s es r, (f (s.withHostSide es r)).architectural = (f s).architectural) {s t : State}
    (h : s.architectural = t.architectural) : (f s).architectural = (f t).architectural :=
  calc (f s).architectural = (f s.architectural).architectural := (hf s [] none).symm
    _ = (f t.architectural).architectural := by rw [h]
    _ = (f t).architectural := hf t [] none

theorem State.architectural_commit {s t : State} (w : Word) (h : s.architectural = t.architectural) :
    (s.commit w).architectural = (t.commit w).architectural := by
  refine architectural_congr (f := fun s => s.commit w) (fun s es r => ?_) h
  rw [State.commit_eq _ _ w (issue_withHostSide w s _ es r (issue_eq_commit w s))]
  rfl

theorem State.architectural_accessIfAny_congr {s t : State} (a : Option Access) (h : s.architectural = t.architectural) :
    (s.accessIfAny a).architectural = (t.accessIfAny a).architectural := by
  match a with
  | none => exact h
  | some (.read b) => exact h
  | some (.write b v) =>
    refine architectural_congr (f := fun s => s.hostWrite b v) (fun s es r => ?_) h
    rw [State.hostWrite_withHostSide]
    rfl

/-! ### Runs without reset -/

/-- Along a step that takes no reset, none comes up later, and a fault once taken stays (60_exceptions.md R161). -/
theorem step_without_reset {s t : State} (hin : ∀ e ∈ s.inputs, e.rst = false) (h : step s = .next t) :
    (∀ e ∈ t.inputs, e.rst = false) ∧ (s.fault = true → t.fault = true) := by
  rcases step_cases s t h with ⟨-, rfl⟩ | ⟨e, rest, hs, he⟩
  · exact ⟨fun e he => absurd he List.not_mem_nil, id⟩
  · rw [hs] at hin
    obtain ⟨hr, hrest⟩ := List.forall_mem_cons.1 hin
    rw [transfer_keeps_inputs e _ t he]
    exact ⟨hrest, fun hf => transfer_keeps_fault e (s.takeEdge rest) t hr hf he⟩

theorem run_keeps_fault {k : Nat} {s t : State} (hin : ∀ e ∈ s.inputs, e.rst = false) (hf : s.fault = true)
    (h : Host.Core.run core k s = .next t) : t.fault = true := by
  induction k generalizing s with
  | zero => cases h; exact hf
  | succ k ih =>
    obtain ⟨u, hu⟩ := exists_step_eq_next s
    obtain ⟨hrest, hkept⟩ := step_without_reset hin hu
    exact ih hrest (hkept hf) ((run_succ k hu).symm.trans h)

/-- If a run without reset ends without a fault, so does every shorter one from the same state. -/
theorem run_goodEnd_of_le {n k : Nat} {s t : State} (hin : ∀ e ∈ s.inputs, e.rst = false)
    (h : Host.Core.run core k s = .next t) (ht : t.goodEnd) (hn : n ≤ k) :
    ∃ u : State, Host.Core.run core n s = .next u ∧ u.goodEnd := by
  induction n generalizing s k with
  | zero =>
    refine ⟨s, rfl, eq_false_of_ne_true fun hf => ?_⟩
    rw [State.goodEnd, run_keeps_fault hin hf h] at ht
    cases ht
  | succ n ih =>
    obtain ⟨m, rfl⟩ := Nat.exists_eq_add_of_le' (Nat.one_le_of_lt hn)
    obtain ⟨u, hu⟩ := exists_step_eq_next s
    rw [run_succ n hu]
    exact ih (step_without_reset hin hu).1 ((run_succ m hu).symm.trans h) (Nat.le_of_succ_le_succ hn)

end Sys2Proof.Machine

/-! SUPPORT. The handshake and the machine of transfers (20_memory.md, 70_reset_and_hazards.md), settled. -/

namespace Sys2Proof.Proofs

open Sys2Proof.Machine Sys2Proof.Statements

/-! ### What is in execution counts as complete -/

theorem settled_busyFor (w : Word) (s : State) (n : Nat) : settled (PinState.busyFor w s n) = s.commit w := by
  cases n <;> rfl

theorem settled_startCommand (w : Word) (s : State) : settled (startCommand w s) = s.commit w := by
  obtain ⟨n, hn⟩ : ∃ n, latency w s = n + 1 := ⟨_, Nat.add_comm 1 _⟩
  rw [startCommand_eq_busyFor w s n hn, settled_busyFor]

/-- An edge at which nothing transfers is one of a command in execution, and brings it no more than nearer to its end. -/
theorem settled_pinEdge_of_no_transfer (p : PinState) (i : PinInputs) (h : p.transferred i = none) :
    settled (pinEdge p i) = settled p := by
  obtain ⟨s, f⟩ := p
  cases hr : i.rst with
  | true => rw [PinState.transferred_rst _ i hr] at h; cases h
  | false =>
    cases f with
    | none => simp [PinState.transferred, PinState.idle, hr] at h
    | some f =>
      rw [pinEdge_executing f s i hr, show continueCommand f s = _ from continueCommand_eq_busyFor f.word s f.more,
        settled_busyFor]
      rfl

/-- What transfers at an edge takes a state that agrees with the pins to one that agrees with the pins after it. -/
theorem transfer_refines_pinEdge (p : PinState) (i : PinInputs) (e : Edge) (s : State) (he : p.transferred i = some e)
    (hs : s.architectural = (settled p).architectural) :
    ∃ t, transfer e s = .next t ∧ t.architectural = (settled (pinEdge p i)).architectural := by
  obtain ⟨a, f⟩ := p
  cases hr : i.rst with
  | true =>
    rw [PinState.transferred_rst _ i hr] at he
    cases he
    rw [pinEdge_rst _ i hr]
    exact ⟨_, transfer_rst _ s rfl, rfl⟩
  | false =>
    cases f with
    | some f => rw [PinState.transferred_busy _ i rfl hr] at he; cases he
    | none =>
      obtain rfl : { rst := false, access := i.request, command := i.offered } = e := by
        simpa [PinState.transferred, PinState.idle, hr] using he
      have haccess := State.architectural_accessIfAny_congr i.request hs
      cases hw : i.offered with
      | some w =>
        refine ⟨_, (transfer_command _ s w rfl rfl).trans (issue_eq_commit w _), ?_⟩
        rw [pinEdge_offered a i w hr hw, settled_startCommand]
        exact State.architectural_commit w haccess
      | none =>
        refine ⟨_, transfer_no_command _ s rfl rfl, ?_⟩
        rw [pinEdge_not_offered a i hr hw]
        exact haccess

/-- The simulation, by induction over the clock edges from any state at the pins: an edge at which something transfers is one
step of the machine, and every other edge is none. -/
theorem run_transfers_refines_pinRun (p : PinState) (is : List PinInputs) (s : State)
    (hs : s.architectural = (settled p).architectural) (hin : s.inputs = pinTransfers p is) :
    ∃ t, Host.Core.run core (pinTransfers p is).length s = .next t ∧
      t.architectural = (settled (pinRun p is)).architectural := by
  induction is generalizing p s with
  | nil => exact ⟨s, rfl, hs⟩
  | cons i is ih =>
    rw [pinTransfers] at hin ⊢
    rw [pinRun]
    cases he : p.transferred i with
    | none =>
      rw [he] at hin
      exact ih (pinEdge p i) s (hs.trans (by rw [settled_pinEdge_of_no_transfer p i he])) hin
    | some e =>
      rw [he] at hin
      obtain ⟨u, hu, harch⟩ := transfer_refines_pinEdge p i e (s.takeEdge (pinTransfers (pinEdge p i) is)) he hs
      have hstep : step s = .next u := (step_cons s e _ hin).trans hu
      obtain ⟨t, ht, hend⟩ := ih (pinEdge p i) u harch (transfer_keeps_inputs e _ u hu)
      exact ⟨t, (run_succ _ hstep).trans ht, hend⟩

/-- Settles O47: an idle core holds what its architectural state says, and from there the simulation. -/
theorem handshakeRefinesTheTransfers : Obligations.HandshakeRefinesTheTransfers := by
  intro p is hp _
  refine run_transfers_refines_pinRun p is _ ?_ rfl
  rw [settled, p.idle_iff.1 hp]
  rfl

end Sys2Proof.Proofs

/-! SUPPORT. The statements about single steps, runs, the reset state and the decoder's round trip, settled. -/

namespace Sys2Proof.Proofs

open Sys2Proof.Machine Sys2Proof.Statements

/-- Settles O1: only well-formed commands are decoded, and each has the one word the encoder gives it. -/
theorem decodeAndEncodeAgree : Obligations.DecodeAndEncodeAgree := by
  intro w i
  constructor
  · exact fun h => ⟨decode_command_wf w i h, encode_of_decode h⟩
  · rintro ⟨hwf, rfl⟩
    exact decode_encode i hwf

/-- Settles O39: every operation a step is made of keeps the invariants. -/
theorem stepKeepsTheStateLegal : Obligations.StepKeepsTheStateLegal := fun _ _ hs hst => hs.step hst

/-- Settles O32: without reset a fault stays, so a good end has only good states before it. -/
theorem goodEndMeansNoFaultOnTheWay : Obligations.GoodEndMeansNoFaultOnTheWay := by
  intro es ⟨t, hrun, ht⟩ hes n hn
  exact run_goodEnd_of_le (s := { State.reset with inputs := es }) hes hrun ht hn

/-- Settles O5: word by word. -/
theorem specExampleWordsDecode : Obligations.SpecExampleWordsDecode := by
  unfold Obligations.SpecExampleWordsDecode
  decide

/-- An illegal word raises its cause unless a fault is recorded already. -/
theorem execIllegal_eq (s : State) :
    execIllegal s = .next (if s.fault then s else afterFault s .illegalCommand) := by
  cases hf : s.fault with
  | true => exact State.issueEffect_faulted s _ hf
  | false => exact State.issueEffect_running s _ hf

theorem tableWord_toNat (w : Word) : tableWord 16 w.toNat = w := by
  rw [tableWord, Nat.mod_eq_of_lt w.isLt, BitVec.ofNat_toNat, BitVec.setWidth_eq]

/-- Settles O6: the edge's word is issued after its access, as the command it decodes to or as an illegal word. -/
theorem stepIssuesTheDecodedCommand : Obligations.StepIssuesTheDecodedCommand := by
  refine ⟨fun s e rest w i hin hr hw hd => ?_, fun s e rest w why hin hr hw hd => ?_, fun s w i hd => ?_⟩
  · rw [step_of_command s e rest w hin hr hw, issue_command w i _ hd]
  · rw [step_of_command s e rest w hin hr hw, issue_illegal w why _ hd, execIllegal_eq, State.accessIfAny_fault,
      State.takeEdge_fault]
  · have hin : nextInput (s.withFetchWord 16 w.toNat) (commandEdge w) s.inputs := by
      rw [State.withFetchWord, tableWord_toNat]
      rfl
    rw [step_of_command _ _ _ w hin rfl rfl, issue_command w i _ hd]
    rfl

/-- Settles O7: every edge and every word has an outcome, and it is a next state. -/
theorem everyStepHasANextState : Obligations.EveryStepHasANextState :=
  ⟨exists_step_eq_next, exists_issue_eq_next⟩

/-- Written to another length and back, a length register holds what it held. -/
theorem setLen_setLen_back (s : State) (k : Reg) (n : Byte) : (s.setLen k n).setLen k (s.len k) = s := by
  cases k <;> rfl

/-- Settles O16: both commands complete, and the second writes the length that stood there. -/
theorem setlenShrinkAndGrowRestores : Obligations.SetlenShrinkAndGrowRestores := by
  intro k n s _ hf _
  refine ⟨_, exec_setlen_running k n s hf, ?_⟩
  rw [exec_setlen_running k _ _ ((s.setLen_fault k n).trans hf), setLen_setLen_back]

/-- Settles O38: the state after reset is one an edge with reset leaves. -/
theorem resetStateIsLegal : Obligations.ResetStateIsLegal :=
  ⟨State.Legal.reset, allReset_resetEdge State.reset, fun k => State.buffer_of_count_eq_zero _ k (by cases k <;> rfl)⟩

/-! ### Latency (40_field_arithmetic.md R103, 70_reset_and_hazards.md R196) -/

/-- The opcode numbers of 30_encoding.md R74. -/
def opcodeOf : Instr → BitVec 4
  | .shlc _ _ => 1
  | .double _ _ => 2
  | .xorinto _ _ => 3
  | .xorto _ _ _ => 4
  | .xorr _ _ _ => 5
  | .setlen _ _ => 6

theorem opField_encode (i : Instr) : opField (encode i) = opcodeOf i := by
  refine BitVec.eq_of_toNat_eq ((toNat_opField _).trans ?_)
  cases i with
  | shlc rd ra => exact encodeRR_opcode 1 rd ra
  | double rd ra => exact encodeRR_opcode 2 rd ra
  | xorinto rd ra => exact encodeRR_opcode 3 rd ra
  | xorto rd ra rb => exact encodeRRR_opcode 4 rd ra rb
  | xorr rd ra rb => exact encodeRRR_opcode 5 rd ra rb
  | setlen rd imm8 => exact encodeRI_opcode 6 rd imm8

/-- Two words take equally long where their commands have the same opcode and the lengths that count are the same. -/
theorem latency_encode_eq {i j : Instr} {s t : State} (hi : i.wf = true) (hj : j.wf = true)
    (hop : opcodeOf i = opcodeOf j) (hlens : operandLens s (.command i) = operandLens t (.command j)) :
    latency (encode i) s = latency (encode j) t := by
  rw [latency, latency, opField_encode, opField_encode, decode_encode i hi, decode_encode j hj, hop, hlens]

/-- Settles O48: row by row, with the formula's word as the encoder's. -/
theorem latencyIsAFunctionOfOpcodeAndLengths : Obligations.LatencyIsAFunctionOfOpcodeAndLengths := by
  refine ⟨fun w s => Nat.le_add_right 1 _, fun rd ra rb rd' ra' rb' s s' ha => ?_⟩
  simp only [← encode_shlc_eq_rrWord, ← encode_double_eq_rrWord, ← encode_xorinto_eq_rrWord, ← encode_xorto_eq_rrrWord,
    ← encode_xorr_eq_rrrWord, ← encode_setlen_eq_riWord]
  refine ⟨latency_encode_eq rfl rfl rfl ?_, latency_encode_eq rfl rfl rfl ?_,
    fun hd => latency_encode_eq rfl rfl rfl ?_,
    fun hd hb => ⟨latency_encode_eq rfl rfl rfl ?_, latency_encode_eq rfl rfl rfl ?_⟩,
    fun m n hm hn => latency_encode_eq (decide_eq_true hm) (decide_eq_true hn) rfl ?_⟩
  · simp only [operandLens, ha]
  · simp only [operandLens, ha]
  · simp only [operandLens, ha, hd]
  · simp only [operandLens, ha, hd, hb]
  · simp only [operandLens, ha, hd, hb]
  · simp only [operandLens, ha]

end Sys2Proof.Proofs

/-! SUPPORT. The bits of a buffer and the number they make (00_scope.md R11), and polynomials over GF(2) given by their bits
(R12). -/

namespace Sys2Proof.Machine

/-- Bit `j` of a number stands in byte `j / 8` from the end, by induction from the last byte on. -/
theorem testBit_val (bs : List Byte) (j : Nat) (hj : j < 8 * bs.length) :
    (val bs).testBit j = (bs.getD (bs.length - 1 - j / 8) 0).getLsbD (j % 8) := by
  induction bs with
  | nil => exact absurd hj (Nat.not_lt_zero j)
  | cons b bs ih =>
    rw [List.length_cons] at hj
    have hval : val (b :: bs) = 2 ^ (8 * bs.length) * b.toNat + val bs := by
      rw [val, Nat.pow_mul, Nat.mul_comm]
    rw [hval, Nat.testBit_two_pow_mul_add _ (val_lt bs), List.length_cons, Nat.add_sub_cancel]
    split
    · next hlow =>
      have hindex : bs.length - j / 8 = bs.length - 1 - j / 8 + 1 := by omega
      rw [ih hlow, hindex, List.getD_cons_succ]
    · next hhigh =>
      have hindex : bs.length - j / 8 = 0 := by omega
      have hbit : j - 8 * bs.length = j % 8 := by omega
      rw [hindex, hbit, List.getD_cons_zero, BitVec.testBit_toNat]

/-- Bytes at the indices below `L` are equal exactly when the bits of their number are. -/
theorem forall_byte_eq_iff (x y : Nat → Byte) (L : Nat) :
    (∀ i, i < L → x i = y i) ↔
      ∀ j, j < 8 * L → (x (L - 1 - j / 8)).getLsbD (j % 8) = (y (L - 1 - j / 8)).getLsbD (j % 8) := by
  constructor
  · intro h j hj
    rw [h _ (by omega)]
  · intro h i hi
    refine BitVec.eq_of_getLsbD_eq fun b hb => ?_
    have hbit := h (8 * (L - 1 - i) + b) (by omega)
    rwa [show L - 1 - (8 * (L - 1 - i) + b) / 8 = i by omega, show (8 * (L - 1 - i) + b) % 8 = b by omega] at hbit

/-! ### Polynomials over GF(2) by their bits -/

open Polynomial

/-- The polynomial with the bits `f` below `n` as its coefficients. -/
noncomputable def bitsPoly (f : Nat → Bool) (n : Nat) : (ZMod 2)[X] := ∑ j ∈ Finset.range n, if f j then X ^ j else 0

theorem coeff_bitsPoly (f : Nat → Bool) (n j : Nat) :
    (bitsPoly f n).coeff j = if j < n ∧ f j = true then 1 else 0 := by
  have hterm (i : Nat) : (if f i then (X : (ZMod 2)[X]) ^ i else 0).coeff j =
      if j = i then (if f i then 1 else 0) else 0 := by
    cases f i <;> simp [coeff_X_pow]
  rw [bitsPoly, finsetSum_coeff, Finset.sum_congr rfl fun i _ => hterm i, Finset.sum_ite_eq]
  simp only [Finset.mem_range, ite_and]

theorem coeff_bitsPoly_eq_one_iff (f : Nat → Bool) (n j : Nat) :
    (bitsPoly f n).coeff j = 1 ↔ j < n ∧ f j = true := by
  rw [coeff_bitsPoly]
  split
  · next h => exact iff_of_true rfl h
  · next h => exact iff_of_false zero_ne_one h

theorem bitsPoly_eq_iff (f g : Nat → Bool) (n : Nat) : bitsPoly f n = bitsPoly g n ↔ ∀ j, j < n → f j = g j := by
  constructor
  · intro h j hj
    have hcoeff := coeff_bitsPoly_eq_one_iff f n j
    rw [h, coeff_bitsPoly_eq_one_iff, and_congr_right_iff] at hcoeff
    exact Bool.eq_iff_iff.2 (hcoeff hj).symm
  · intro h
    ext j
    rw [coeff_bitsPoly, coeff_bitsPoly]
    by_cases hj : j < n
    · rw [h j hj]
    · simp [hj]

theorem bitsPoly_false (n : Nat) : bitsPoly (fun _ => false) n = 0 := by
  ext j
  simp [coeff_bitsPoly]

/-- XOR of bits is addition over GF(2). -/
theorem bitsPoly_xor (f g : Nat → Bool) (n : Nat) : bitsPoly (fun j => f j ^^ g j) n = bitsPoly f n + bitsPoly g n := by
  have hsum : (1 : ZMod 2) + 1 = 0 := rfl
  ext j
  rw [coeff_add, coeff_bitsPoly, coeff_bitsPoly, coeff_bitsPoly]
  by_cases hj : j < n
  · cases f j <;> cases g j <;> simp [hj, hsum]
  · simp [hj]

theorem degree_bitsPoly_lt (f : Nat → Bool) (n : Nat) : (bitsPoly f n).degree < n := by
  rw [degree_lt_iff_coeff_zero]
  intro j hj
  rw [coeff_bitsPoly, if_neg fun h => Nat.not_lt.2 hj h.1]

/-- Multiplication by `x` moves every bit up by one place. -/
theorem X_mul_bitsPoly (f : Nat → Bool) (n : Nat) :
    X * bitsPoly f n = bitsPoly (fun j => decide (j ≠ 0) && f (j - 1)) (n + 1) := by
  ext j
  cases j with
  | zero => simp [coeff_bitsPoly]
  | succ j => simp [coeff_bitsPoly]

theorem bitsPoly_singleton (n : Nat) : bitsPoly (fun j => decide (j = n)) (n + 1) = X ^ n := by
  ext j
  rw [coeff_bitsPoly, coeff_X_pow]
  by_cases h : j = n <;> simp [h]

/-- The places above the bits can be had, with zeros in them. -/
theorem bitsPoly_eq_of_le (f : Nat → Bool) (m n : Nat) (hmn : m ≤ n) :
    bitsPoly f m = bitsPoly (fun j => decide (j < m) && f j) n := by
  ext j
  rw [coeff_bitsPoly, coeff_bitsPoly]
  by_cases hj : j < m
  · simp [hj, hj.trans_le hmn]
  · simp [hj]

/-- A sum of distinct powers has a 1 where a power stands. -/
theorem sum_X_pow_eq_bitsPoly (l : List Nat) (n : Nat) (hnodup : l.Nodup) (hlt : ∀ j ∈ l, j < n) :
    (l.map fun j => (X : (ZMod 2)[X]) ^ j).sum = bitsPoly (fun j => decide (j ∈ l)) n := by
  induction l with
  | nil => exact (bitsPoly_false n).symm
  | cons a l ih =>
    obtain ⟨ha, hl⟩ := List.nodup_cons.1 hnodup
    obtain ⟨han, hln⟩ := List.forall_mem_cons.1 hlt
    have hxor : (fun j => decide (j ∈ a :: l)) = fun j => decide (j = a) ^^ decide (j ∈ l) := by
      funext j
      by_cases hj : j = a
      · simp [hj, ha]
      · simp [hj]
    have hpow : bitsPoly (fun j => decide (j = a)) n = X ^ a := by
      rw [← bitsPoly_singleton a, bitsPoly_eq_of_le _ _ _ han, bitsPoly_eq_iff]
      intro j _
      by_cases hj : j = a <;> simp [hj]
    rw [List.map_cons, List.sum_cons, ih hl hln, hxor, bitsPoly_xor, hpow]

end Sys2Proof.Machine

/-! SUPPORT. `DOUBLE` bit by bit (40_field_arithmetic.md R99), and from the bits its statements about numbers, polynomials,
linearity and fixed points, settled. -/

namespace Sys2Proof.Proofs

open Sys2Proof.Machine Sys2Proof.Statements

/-- Settles O21: by induction on the bytes, in `testBit_val`. -/
theorem bufferNumberBits : Obligations.BufferNumberBits := testBit_val

theorem testBit_val_buffer (s : State) (k : Reg) (j : Nat) (hj : j < 8 * s.count k) :
    (val (s.buffer k)).testBit j = bufferBit s k (s.count k) j := by
  rw [testBit_val _ j (by rwa [s.length_buffer]), s.length_buffer, s.getD_buffer k _ 0 (by omega), bufferBit]

/-- Bytes held are equal exactly when the bits of their number are. -/
theorem forall_cell_eq_iff (s t : State) (k l : Reg) (L : Nat) :
    (∀ i, i < L → s.cell k i = t.cell l i) ↔ ∀ j, j < 8 * L → bufferBit s k L j = bufferBit t l L j :=
  forall_byte_eq_iff (s.cell k) (t.cell l) L

/-- Bytes are the XOR of two other registers' exactly when the bits of their number are. -/
theorem forall_cell_eq_xor_iff (s t u : State) (k : Reg) (L : Nat) :
    (∀ i, i < L → s.cell k i = t.cell k i ^^^ u.cell k i) ↔
      ∀ j, j < 8 * L → bufferBit s k L j = (bufferBit t k L j ^^ bufferBit u k L j) := by
  have h := forall_byte_eq_iff (s.cell k) (fun i => t.cell k i ^^^ u.cell k i) L
  simp only [BitVec.getLsbD_xor] at h
  exact h

/-! ### The taps (40_field_arithmetic.md R96, R97, R99) -/

section Taps

variable {L : Nat} (hL : L ∈ fieldSizes)
include hL

theorem pos_of_mem_fieldSizes : 0 < L := by
  revert L; decide

theorem taps_nodup : (taps L).Nodup := by
  revert L; decide

theorem lt_of_mem_taps : ∀ j ∈ taps L, j < 8 * L := by
  revert L; decide

theorem zero_mem_taps : 0 ∈ taps L := by
  revert L; decide

/-- The table of taps and the table of constants, in the 24 places a constant can have. -/
theorem constant_bits_low : ∀ j, j < 24 → (constantNumber L).testBit j = decide (j ∈ taps L) ∧
    (constantByte L (L - 1 - j / 8)).getLsbD (j % 8) = decide (j ∈ taps L) := by
  revert L; decide

theorem not_mem_taps_high : ∀ j ∈ taps L, j < 24 := by
  revert L; decide

theorem constantNumber_lt : constantNumber L < 2 ^ 24 := by
  revert L; decide

theorem constantLength_le_three : constantLength L ≤ 3 := by
  revert L; decide

theorem testBit_constantNumber (j : Nat) : (constantNumber L).testBit j = decide (j ∈ taps L) := by
  rcases Nat.lt_or_ge j 24 with hj | hj
  · exact (constant_bits_low hL j hj).1
  · rw [decide_eq_false fun hmem => Nat.not_lt.2 hj (not_mem_taps_high hL j hmem)]
    exact Nat.testBit_lt_two_pow ((constantNumber_lt hL).trans_le (Nat.pow_le_pow_right Nat.two_pos hj))

/-- Selected by a bit, as the reduction selects it. -/
theorem testBit_constantNumber_if (v : Bool) (j : Nat) :
    (if v then constantNumber L else 0).testBit j = (v && decide (j ∈ taps L)) := by
  cases v with
  | false => exact Nat.zero_testBit j
  | true => exact (testBit_constantNumber hL j).trans (Bool.true_and _).symm

theorem getLsbD_constantByte (j : Nat) (hj : j < 8 * L) :
    (constantByte L (L - 1 - j / 8)).getLsbD (j % 8) = decide (j ∈ taps L) := by
  rcases Nat.lt_or_ge j 24 with hlow | hhigh
  · exact (constant_bits_low hL j hlow).2
  · have hlen := constantLength_le_three hL
    rw [constantByte_eq_zero L _ (by omega), decide_eq_false fun hmem => Nat.not_lt.2 hhigh (not_mem_taps_high hL j hmem)]
    exact BitVec.getLsbD_zero

end Taps

/-! ### One bit of the result -/

/-- Bit `j` of the shifted buffer is bit `j - 1` of the buffer, across the borders of bytes. -/
theorem shiftedBit_eq_bufferBit (s : State) (k : Reg) (L j : Nat) (hj : j < 8 * L) :
    shiftedBit s k L (L - 1 - j / 8) (j % 8) = (decide (j ≠ 0) && bufferBit s k L (j - 1)) := by
  unfold shiftedBit bufferBit
  split
  · next hborder =>
    rcases Nat.eq_zero_or_pos j with rfl | hpos
    · have hout : ¬ L - 1 - 0 / 8 + 1 < L := by omega
      rw [decide_eq_false hout, Bool.false_and]
      rfl
    · have hlast : (j - 1) % 8 = 7 := by omega
      have hnext : L - 1 - (j - 1) / 8 = L - 1 - j / 8 + 1 := by omega
      have hin : L - 1 - j / 8 + 1 < L := by omega
      rw [hlast, hnext, decide_eq_true hin, decide_eq_true (Nat.ne_of_gt hpos)]
  · next hinner =>
    have hbyte : (j - 1) / 8 = j / 8 := by omega
    have hbit : (j - 1) % 8 = j % 8 - 1 := by omega
    have hpos : j ≠ 0 := by omega
    rw [hbyte, hbit, decide_eq_true hpos, Bool.true_and]

/-- The top bit of a buffer's number is bit 7 of its first byte. -/
theorem bufferBit_top (s : State) (k : Reg) (L : Nat) (hL : 0 < L) :
    bufferBit s k L (8 * L - 1) = (s.cell k 0).getLsbD 7 := by
  have hindex : L - 1 - (8 * L - 1) / 8 = 0 := by omega
  have hbit : (8 * L - 1) % 8 = 7 := by omega
  rw [bufferBit, hindex, hbit]

/-- On a field size `DOUBLE` returns the doubled buffer. -/
theorem exec_double_returns (rd ra : Reg) (s : State) (hs : s.Legal) (hf : s.fault = false)
    (hsize : s.count ra ∈ fieldSizes) :
    ∃ t, exec (.double rd ra) s = .next t ∧ BufferReturned s t rd (s.len ra) (doubled (s.buffer ra)) :=
  ⟨_, exec_double_of_mem rd ra s hf hsize, bufferReturned_setCells_setLen s rd (s.len ra) _ hs.cells
    ((length_doubled _).trans (s.length_buffer ra)) (hs.lens ra)⟩

section Doubled

variable {s t : State} {rd ra : Reg} (h : BufferReturned s t rd (s.len ra) (doubled (s.buffer ra)))
  (hsize : s.count ra ∈ fieldSizes)
include h hsize

/-- The bit matrix: every bit moves up one place, and the top bit comes in at the taps. -/
theorem bufferBit_doubled (j : Nat) (hj : j < 8 * s.count ra) :
    bufferBit t rd (s.count ra) j = ((decide (j ≠ 0) && bufferBit s ra (s.count ra) (j - 1)) ^^
      (bufferBit s ra (s.count ra) (8 * s.count ra - 1) && decide (j ∈ taps (s.count ra)))) := by
  have hi : s.count ra - 1 - j / 8 < s.count ra := by omega
  rw [bufferBit, h.cell _ hi, getLsbD_doubled_buffer s ra _ _ hsize hi (Nat.mod_lt j (by omega)),
    shiftedBit_eq_bufferBit s ra _ j hj, bufferBit_top s ra _ (pos_of_mem_fieldSizes hsize), getLsbD_constantByte hsize j hj]

/-- The result as a number, bit by bit. -/
theorem val_doubled : val (t.buffer rd) = (2 * val (s.buffer ra)) % 2 ^ (8 * s.count ra) ^^^
    (if bufferBit s ra (s.count ra) (8 * s.count ra - 1) then constantNumber (s.count ra) else 0) := by
  have hcount : t.count rd = s.count ra := congrArg BitVec.toNat h.len
  refine Nat.eq_of_testBit_eq fun j => ?_
  rw [Nat.testBit_xor, testBit_constantNumber_if hsize, ← s.length_buffer ra, ← val_shl1, testBit_val_shl1, s.length_buffer]
  rcases Nat.lt_or_ge j (8 * s.count ra) with hj | hj
  · have hprev : j - 1 < 8 * s.count ra := by omega
    rw [testBit_val_buffer t rd j (by rwa [hcount]), hcount, bufferBit_doubled h hsize j hj, decide_eq_true hj,
      Bool.true_and, testBit_val_buffer s ra _ hprev]
    simp only [Nat.one_le_iff_ne_zero]
  · have hlt := val_lt (t.buffer rd)
    rw [t.length_buffer, hcount] at hlt
    have hnot : j ∉ taps (s.count ra) := fun hmem => Nat.not_lt.2 hj (lt_of_mem_taps hsize j hmem)
    rw [Nat.testBit_lt_two_pow (hlt.trans_le (Nat.pow_le_pow_right Nat.two_pos hj)), decide_eq_false (Nat.not_lt.2 hj),
      decide_eq_false hnot, Bool.false_and, Bool.and_false]
    rfl

end Doubled

/-- Settles O23: the bit matrix, whose bit 0 is the top bit because 0 is a tap of every field, and the number. -/
theorem doubleIsTheReductionMatrix : Obligations.DoubleIsTheReductionMatrix := by
  intro rd ra s hs hf hsize
  obtain ⟨t, ht, h⟩ := exec_double_returns rd ra s hs hf hsize
  refine ⟨t, ht, fun j hj => ?_, val_doubled h hsize⟩
  rw [bufferBit_doubled h hsize j hj]
  split
  · next hzero => simp [hzero, zero_mem_taps (L := s.count ra) hsize]
  · next hpos => rw [decide_eq_true hpos, Bool.true_and]

/-- Settles O25: bit by bit the matrix is linear, and XOR of bytes is XOR of bits. -/
theorem doubleIsLinearOverXor : Obligations.DoubleIsLinearOverXor := by
  intro rd ra s1 s2 s3 hs1 hs2 hs3 hf1 hf2 hf3 hsize hc2 hc3 hxor
  obtain ⟨t1, ht1, h1⟩ := exec_double_returns rd ra s1 hs1 hf1 hsize
  obtain ⟨t2, ht2, h2⟩ := exec_double_returns rd ra s2 hs2 hf2 (hc2 ▸ hsize)
  obtain ⟨t3, ht3, h3⟩ := exec_double_returns rd ra s3 hs3 hf3 (hc3 ▸ hsize)
  have hbit1 := bufferBit_doubled h1 hsize
  have hbit2 := bufferBit_doubled h2 (hc2 ▸ hsize)
  have hbit3 := bufferBit_doubled h3 (hc3 ▸ hsize)
  rw [hc2] at hbit2
  rw [hc3] at hbit3
  rw [forall_cell_eq_xor_iff] at hxor
  refine ⟨t1, t2, t3, ht1, ht2, ht3, (forall_cell_eq_xor_iff t3 t1 t2 rd _).2 fun j hj => ?_⟩
  rw [hbit1 j hj, hbit2 j hj, hbit3 j hj, hxor (j - 1) (by omega), hxor (8 * s1.count ra - 1) (by omega)]
  simp only [Bool.and_xor_distrib_left, Bool.and_xor_distrib_right, Bool.xor_assoc, Bool.xor_left_comm]

/-! ### `DOUBLE` on polynomials (00_scope.md R12) -/

open Polynomial

theorem element_eq_bitsPoly (s : State) (k : Reg) (L : Nat) : element s k L = bitsPoly (bufferBit s k L) (8 * L) := rfl

theorem element_eq_iff (s t : State) (k l : Reg) (L : Nat) :
    element s k L = element t l L ↔ ∀ i, i < L → s.cell k i = t.cell l i := by
  rw [element_eq_bitsPoly, element_eq_bitsPoly, bitsPoly_eq_iff, forall_cell_eq_iff]

theorem element_eq_zero_iff (s : State) (k : Reg) (L : Nat) : element s k L = 0 ↔ ∀ i, i < L → s.cell k i = 0x00 := by
  have hbits := forall_byte_eq_iff (s.cell k) (fun _ => 0) L
  simp only [BitVec.ofNat_eq_ofNat, BitVec.getLsbD_zero] at hbits
  rw [element_eq_bitsPoly, ← bitsPoly_false (8 * L), bitsPoly_eq_iff]
  exact hbits.symm

section FieldPolynomial

variable {L : Nat} (hL : L ∈ fieldSizes)
include hL

theorem fieldPolynomial_eq_add :
    fieldPolynomial L = X ^ (8 * L) + bitsPoly (fun j => decide (j ∈ taps L)) (8 * L) := by
  rw [fieldPolynomial, sum_X_pow_eq_bitsPoly _ _ (taps_nodup hL) (lt_of_mem_taps hL)]

theorem fieldPolynomial_monic : (fieldPolynomial L).Monic := by
  rw [fieldPolynomial_eq_add hL]
  exact monic_X_pow_add (degree_bitsPoly_lt _ _)

theorem degree_fieldPolynomial : (fieldPolynomial L).degree = (8 * L : ℕ) := by
  rw [fieldPolynomial_eq_add hL, degree_add_eq_left_of_degree_lt, degree_X_pow]
  rw [degree_X_pow]
  exact degree_bitsPoly_lt _ _

/-- Five terms: at 1 the polynomial is 1. -/
theorem eval_one_fieldPolynomial : (fieldPolynomial L).eval 1 = 1 := by
  have hlen : (taps L).length = 4 := by revert L; decide
  simp only [fieldPolynomial, eval_add, eval_pow, eval_X, one_pow, eval_listSum, List.map_map, Function.comp_def,
    List.map_const', List.sum_replicate, hlen]
  rfl

end FieldPolynomial

section Doubled

variable {s t : State} {rd ra : Reg} (h : BufferReturned s t rd (s.len ra) (doubled (s.buffer ra)))
  (hsize : s.count ra ∈ fieldSizes)
include h hsize

/-- `x` times the operand is the result, plus the full polynomial where the top bit was 1: the bit matrix once more, with the
top bit itself in place `8 * L`. -/
theorem X_mul_element : X * element s ra (s.count ra) = element t rd (s.count ra) +
    if bufferBit s ra (s.count ra) (8 * s.count ra - 1) then fieldPolynomial (s.count ra) else 0 := by
  have hbit := bufferBit_doubled h hsize
  have hpos := pos_of_mem_fieldSizes hsize
  generalize s.count ra = L at *
  have hfield : (if bufferBit s ra L (8 * L - 1) then fieldPolynomial L else 0) =
      bitsPoly (fun j => bufferBit s ra L (8 * L - 1) &&
        (decide (j = 8 * L) ^^ (decide (j < 8 * L) && decide (j ∈ taps L)))) (8 * L + 1) := by
    cases bufferBit s ra L (8 * L - 1) with
    | false => simp [bitsPoly_false]
    | true =>
      simp only [Bool.true_and, if_true]
      rw [fieldPolynomial_eq_add hsize, bitsPoly_xor, bitsPoly_singleton, ← bitsPoly_eq_of_le _ _ _ (Nat.le_succ _)]
  rw [hfield, element_eq_bitsPoly, element_eq_bitsPoly, X_mul_bitsPoly, bitsPoly_eq_of_le _ (8 * L) _ (Nat.le_succ _),
    ← bitsPoly_xor, bitsPoly_eq_iff]
  intro j hj
  rcases Nat.lt_succ_iff_lt_or_eq.1 hj with hlt | rfl
  · rw [hbit j hlt]
    have hne : j ≠ 8 * L := hlt.ne
    simp [hlt, hne]
  · have hne : 8 * L ≠ 0 := by omega
    simp [hne]

/-- A result equal to its operand has top bit 0: at 1, `x` is 1 and so is the full polynomial. -/
theorem top_eq_false_of_element_eq (heq : element t rd (s.count ra) = element s ra (s.count ra)) :
    bufferBit s ra (s.count ra) (8 * s.count ra - 1) = false := by
  by_contra htop
  have hx := congrArg (eval 1) (X_mul_element h hsize)
  rw [if_pos (eq_true_of_ne_false htop), heq, eval_mul, eval_X, one_mul, eval_add, eval_one_fieldPolynomial hsize] at hx
  exact one_ne_zero (left_eq_add.1 hx)

/-- Zero is doubled to zero, and nothing else to itself: with top bit 0 the result is `x` times the operand. -/
theorem element_eq_iff_zero :
    element t rd (s.count ra) = element s ra (s.count ra) ↔ element s ra (s.count ra) = 0 := by
  constructor
  · intro heq
    have hx := X_mul_element h hsize
    rw [top_eq_false_of_element_eq h hsize heq, heq, if_neg Bool.false_ne_true, add_zero] at hx
    by_contra hne
    have hX : X = (1 : (ZMod 2)[X]) := mul_right_cancel₀ hne (hx.trans (one_mul _).symm)
    exact X_ne_C 1 (hX.trans C_1.symm)
  · intro hzero
    have hx := X_mul_element h hsize
    have htop : bufferBit s ra (s.count ra) (8 * s.count ra - 1) = false := by
      rw [bufferBit_top s ra _ (pos_of_mem_fieldSizes hsize),
        (element_eq_zero_iff s ra _).1 hzero 0 (pos_of_mem_fieldSizes hsize)]
      rfl
    rw [htop, if_neg Bool.false_ne_true, add_zero, hzero, mul_zero] at hx
    rw [hzero, ← hx]

end Doubled

/-- Settles O24: `X_mul_element` says by how many times the full polynomial the product and the result differ, and the result
has a smaller degree. -/
theorem doubleIsMultiplicationByX : Obligations.DoubleIsMultiplicationByX := by
  intro rd ra s hs hf hsize
  obtain ⟨t, ht, h⟩ := exec_double_returns rd ra s hs hf hsize
  have hdegree : (element t rd (s.count ra)).degree < (fieldPolynomial (s.count ra)).degree := by
    rw [degree_fieldPolynomial hsize]
    exact degree_bitsPoly_lt _ _
  have hx := X_mul_element h hsize
  have hquotient : element t rd (s.count ra) + fieldPolynomial (s.count ra) *
      (if bufferBit s ra (s.count ra) (8 * s.count ra - 1) then 1 else 0) = X * element s ra (s.count ra) := by
    rw [hx, mul_ite, mul_one, mul_zero]
  exact ⟨t, ht, (div_modByMonic_unique _ _ (fieldPolynomial_monic hsize) ⟨hquotient, hdegree⟩).2.symm⟩

/-- Settles O26: as elements the operand and the result are equal only where the operand is zero. -/
theorem doubleFixesOnlyZero : Obligations.DoubleFixesOnlyZero := by
  intro rd ra s hs hf hsize
  obtain ⟨t, ht, h⟩ := exec_double_returns rd ra s hs hf hsize
  exact ⟨t, ht, by rw [← element_eq_iff, element_eq_iff_zero h hsize, element_eq_zero_iff]⟩

end Sys2Proof.Proofs
